-- ==== Sys2Proof/Word.lean ====
section
/-! DEFINITION. The two word types of the machine: bytes (register and memory values) and 16-bit words (the program
counter and every address the engine generates), spec 00_scope.md R5 and R6. -/

namespace Sys2Proof

/-- An 8-bit value: a register, a memory cell, an opcode or operand byte (R5, R10, R24). -/
abbrev Byte := BitVec 8

/-- A 16-bit value: the program counter and every address the engine presents (R5, R14, R40). -/
abbrev Word := BitVec 16

end Sys2Proof
end

