-- ==== Sys2Proof/Syntax.lean ====
section
/-! DEFINITION. The instruction set as syntax: the 22 mnemonics, the thirteen addressing modes (30_encoding.md R71), and
`Instr` with one constructor for each of the 80 rows of opcode_table.json (R76). An operand is held as assembled by R73:
an immediate or page-zero byte, a 16-bit word, or the raw branch-offset byte. -/

namespace Sys2Proof

/-- The 22 mnemonics of R76. -/
inductive Mnemonic where
  | lda
  | ldx
  | sta
  | stx
  | tax
  | txa
  | tay
  | tya
  | ora
  | and
  | asl
  | adc
  | cmp
  | inc
  | dec
  | inx
  | iny
  | jmp
  | beq
  | bne
  | nop
  | brk
  deriving DecidableEq, Repr

/-- The thirteen addressing modes of R71, under the spec's abbreviations. -/
inductive Mode where
  | imp | acc | imm | zp | zpX | zpY | abs | absX | absY | ind | indX | indY | rel
  deriving DecidableEq, Repr

/-- The eight modes that resolve to the effective address of one memory cell used as data (R107's `Addr`), each with its
assembled operand (R73): a page-zero byte, a 16-bit word, or a page-zero pointer. -/
inductive MemForm where
  | zp (z : Byte) | zpX (z : Byte) | zpY (z : Byte)
  | abs (w : Word) | absX (w : Word) | absY (w : Word)
  | indX (p : Byte) | indY (p : Byte)
  deriving DecidableEq, Repr

/-- The 80 instructions of R76: mnemonic, then mode. -/
inductive Instr where
  -- LDA: load accumulator (R120)
  | ldaImm (v : Byte)
  | ldaZp (z : Byte)
  | ldaZpX (z : Byte)
  | ldaAbs (w : Word)
  | ldaAbsX (w : Word)
  | ldaAbsY (w : Word)
  | ldaIndX (p : Byte)
  | ldaIndY (p : Byte)
  -- LDX: load index X (R121)
  | ldxImm (v : Byte)
  | ldxZp (z : Byte)
  | ldxZpY (z : Byte)
  | ldxAbs (w : Word)
  | ldxAbsY (w : Word)
  -- STA: store accumulator (R122)
  | staZp (z : Byte)
  | staZpX (z : Byte)
  | staAbs (w : Word)
  | staAbsX (w : Word)
  | staAbsY (w : Word)
  | staIndX (p : Byte)
  | staIndY (p : Byte)
  -- STX: store index X (R123)
  | stxZp (z : Byte)
  | stxZpY (z : Byte)
  | stxAbs (w : Word)
  -- TAX: transfer A to X (R124)
  | tax
  -- TXA: transfer X to A (R125)
  | txa
  -- TAY: transfer A to Y (R126)
  | tay
  -- TYA: transfer Y to A (R127)
  | tya
  -- ORA: OR with accumulator (R140)
  | oraImm (v : Byte)
  | oraZp (z : Byte)
  | oraZpX (z : Byte)
  | oraAbs (w : Word)
  | oraAbsX (w : Word)
  | oraAbsY (w : Word)
  | oraIndX (p : Byte)
  | oraIndY (p : Byte)
  -- AND: AND with accumulator (R141)
  | andImm (v : Byte)
  | andZp (z : Byte)
  | andZpX (z : Byte)
  | andAbs (w : Word)
  | andAbsX (w : Word)
  | andAbsY (w : Word)
  | andIndX (p : Byte)
  | andIndY (p : Byte)
  -- ASL: arithmetic shift left (R142)
  | aslAcc
  | aslZp (z : Byte)
  | aslZpX (z : Byte)
  | aslAbs (w : Word)
  | aslAbsX (w : Word)
  -- ADC: add with carry (R150)
  | adcImm (v : Byte)
  | adcZp (z : Byte)
  | adcZpX (z : Byte)
  | adcAbs (w : Word)
  | adcAbsX (w : Word)
  | adcAbsY (w : Word)
  | adcIndX (p : Byte)
  | adcIndY (p : Byte)
  -- CMP: compare with accumulator (R153)
  | cmpImm (v : Byte)
  | cmpZp (z : Byte)
  | cmpZpX (z : Byte)
  | cmpAbs (w : Word)
  | cmpAbsX (w : Word)
  | cmpAbsY (w : Word)
  | cmpIndX (p : Byte)
  | cmpIndY (p : Byte)
  -- INC: increment memory (R154)
  | incZp (z : Byte)
  | incZpX (z : Byte)
  | incAbs (w : Word)
  | incAbsX (w : Word)
  -- DEC: decrement memory (R155)
  | decZp (z : Byte)
  | decZpX (z : Byte)
  | decAbs (w : Word)
  | decAbsX (w : Word)
  -- INX: increment X (R156)
  | inx
  -- INY: increment Y (R157)
  | iny
  -- JMP: jump (R170)
  | jmpAbs (w : Word)
  | jmpInd (w : Word)
  -- BEQ: branch if zero set (R172)
  | beq (d : Byte)
  -- BNE: branch if zero clear (R173)
  | bne (d : Byte)
  -- NOP: no operation (R175)
  | nop
  -- BRK: break (R176)
  | brk
  deriving DecidableEq, Repr

/-- The mnemonic of an instruction. -/
def Instr.mnemonic : Instr → Mnemonic
  | .ldaImm _ | .ldaZp _ | .ldaZpX _ | .ldaAbs _ | .ldaAbsX _ | .ldaAbsY _ | .ldaIndX _ | .ldaIndY _ => .lda
  | .ldxImm _ | .ldxZp _ | .ldxZpY _ | .ldxAbs _ | .ldxAbsY _ => .ldx
  | .staZp _ | .staZpX _ | .staAbs _ | .staAbsX _ | .staAbsY _ | .staIndX _ | .staIndY _ => .sta
  | .stxZp _ | .stxZpY _ | .stxAbs _ => .stx
  | .tax => .tax
  | .txa => .txa
  | .tay => .tay
  | .tya => .tya
  | .oraImm _ | .oraZp _ | .oraZpX _ | .oraAbs _ | .oraAbsX _ | .oraAbsY _ | .oraIndX _ | .oraIndY _ => .ora
  | .andImm _ | .andZp _ | .andZpX _ | .andAbs _ | .andAbsX _ | .andAbsY _ | .andIndX _ | .andIndY _ => .and
  | .aslAcc | .aslZp _ | .aslZpX _ | .aslAbs _ | .aslAbsX _ => .asl
  | .adcImm _ | .adcZp _ | .adcZpX _ | .adcAbs _ | .adcAbsX _ | .adcAbsY _ | .adcIndX _ | .adcIndY _ => .adc
  | .cmpImm _ | .cmpZp _ | .cmpZpX _ | .cmpAbs _ | .cmpAbsX _ | .cmpAbsY _ | .cmpIndX _ | .cmpIndY _ => .cmp
  | .incZp _ | .incZpX _ | .incAbs _ | .incAbsX _ => .inc
  | .decZp _ | .decZpX _ | .decAbs _ | .decAbsX _ => .dec
  | .inx => .inx
  | .iny => .iny
  | .jmpAbs _ | .jmpInd _ => .jmp
  | .beq _ => .beq
  | .bne _ => .bne
  | .nop => .nop
  | .brk => .brk

/-- The addressing mode of an instruction. -/
def Instr.mode : Instr → Mode
  | .tax | .txa | .tay | .tya | .inx | .iny | .nop | .brk => .imp
  | .aslAcc => .acc
  | .ldaImm _ | .ldxImm _ | .oraImm _ | .andImm _ | .adcImm _ | .cmpImm _ => .imm
  | .ldaZp _ | .ldxZp _ | .staZp _ | .stxZp _ | .oraZp _ | .andZp _ | .aslZp _ | .adcZp _ | .cmpZp _
  | .incZp _ | .decZp _ => .zp
  | .ldaZpX _ | .staZpX _ | .oraZpX _ | .andZpX _ | .aslZpX _ | .adcZpX _ | .cmpZpX _ | .incZpX _
  | .decZpX _ => .zpX
  | .ldxZpY _ | .stxZpY _ => .zpY
  | .ldaAbs _ | .ldxAbs _ | .staAbs _ | .stxAbs _ | .oraAbs _ | .andAbs _ | .aslAbs _ | .adcAbs _
  | .cmpAbs _ | .incAbs _ | .decAbs _ | .jmpAbs _ => .abs
  | .ldaAbsX _ | .staAbsX _ | .oraAbsX _ | .andAbsX _ | .aslAbsX _ | .adcAbsX _ | .cmpAbsX _
  | .incAbsX _ | .decAbsX _ => .absX
  | .ldaAbsY _ | .ldxAbsY _ | .staAbsY _ | .oraAbsY _ | .andAbsY _ | .adcAbsY _ | .cmpAbsY _ => .absY
  | .jmpInd _ => .ind
  | .ldaIndX _ | .staIndX _ | .oraIndX _ | .andIndX _ | .adcIndX _ | .cmpIndX _ => .indX
  | .ldaIndY _ | .staIndY _ | .oraIndY _ | .andIndY _ | .adcIndY _ | .cmpIndY _ => .indY
  | .beq _ | .bne _ => .rel

end Sys2Proof
end

