-- ==== Sys2Proof/WellFormed.lean ====
section
/-! DEFINITION. Well-formedness: which (mnemonic, mode) pairs exist (30_encoding.md R76), so which instructions do, and
which memory sizes a machine may be built with (R5, D5: 0 and sizes above 65536 are refused). Operand bytes need no check:
every value is legal (R80). -/

namespace Sys2Proof

/-- The modes each mnemonic has: the non-empty cells of its row of R76. -/
def Mnemonic.modes : Mnemonic → List Mode
  | .lda => [.imm, .zp, .zpX, .abs, .absX, .absY, .indX, .indY]
  | .ldx => [.imm, .zp, .zpY, .abs, .absY]
  | .sta => [.zp, .zpX, .abs, .absX, .absY, .indX, .indY]
  | .stx => [.zp, .zpY, .abs]
  | .tax => [.imp]
  | .txa => [.imp]
  | .tay => [.imp]
  | .tya => [.imp]
  | .ora => [.imm, .zp, .zpX, .abs, .absX, .absY, .indX, .indY]
  | .and => [.imm, .zp, .zpX, .abs, .absX, .absY, .indX, .indY]
  | .asl => [.acc, .zp, .zpX, .abs, .absX]
  | .adc => [.imm, .zp, .zpX, .abs, .absX, .absY, .indX, .indY]
  | .cmp => [.imm, .zp, .zpX, .abs, .absX, .absY, .indX, .indY]
  | .inc => [.zp, .zpX, .abs, .absX]
  | .dec => [.zp, .zpX, .abs, .absX]
  | .inx => [.imp]
  | .iny => [.imp]
  | .jmp => [.abs, .ind]
  | .beq => [.rel]
  | .bne => [.rel]
  | .nop => [.imp]
  | .brk => [.imp]

/-- Is the pair one of the 80 of R76? -/
def pairDefined (m : Mnemonic) (mode : Mode) : Bool :=
  m.modes.contains mode

/-- An instruction is well formed when its mnemonic has its mode (R76); its operand may be any value (R80). -/
def Instr.wellFormed (i : Instr) : Bool :=
  pairDefined i.mnemonic i.mode

/-- A memory size a machine may be built with: 1 to 65536 (R5, D5). -/
def memSizeAllowed (n : Nat) : Bool :=
  decide (1 ≤ n ∧ n ≤ 65536)

end Sys2Proof
end

