-- ==== Sys2Proof/Decode.lean ====
section
/-! DEFINITION. Decoding and encoding (30_encoding.md): the constant 256-entry table (R74, R77), operand assembly (R73),
a decoder total on any bytes that refuses by name (R72, R78, R79), and the encoder written from R76's own table. -/

namespace Sys2Proof

/-- The low byte of a word: bits 7:0 (R6). -/
def loByte (w : Word) : Byte := w.extractLsb' 0 8

/-- The high byte of a word: bits 15:8 (R6). -/
def hiByte (w : Word) : Byte := w.extractLsb' 8 8

/-- `hi*256 + lo`: two bytes as a word, the low byte being the one at the lower address (R6, R46, R73). -/
def mk16 (hi lo : Byte) : Word := hi ++ lo

/-- One filled entry of the decode table (R74): the instruction of one (operation, mode) pair, waiting for the operand
bytes its mode takes (R71): none (F1), one (F2), or two, assembled to a word (F3). -/
inductive Entry where
  | f1 (i : Instr)
  | f2 (build : Byte → Instr)
  | f3 (build : Word → Instr)

/-- The number of operand bytes an entry takes after the opcode (R70, R71). -/
def Entry.operandBytes : Entry → Nat
  | .f1 _ => 0
  | .f2 _ => 1
  | .f3 _ => 2

/-- The pair of an entry (R74): the mnemonic and the mode of the instruction it builds, whatever the operand. -/
def Entry.pair : Entry → Mnemonic × Mode
  | .f1 i => (i.mnemonic, i.mode)
  | .f2 f => ((f 0).mnemonic, (f 0).mode)
  | .f3 f => ((f 0).mnemonic, (f 0).mode)

/-- The decode table in opcode order (R77); `none` is an empty entry (R78). The byte values and the pairing are the spec's
own choice (R75, D4; log 8). -/
def table (op : Byte) : Option Entry :=
  match op.toNat with
  | 0x00 => some (.f1 .brk)
  | 0x01 => some (.f2 .oraIndX)
  | 0x05 => some (.f2 .oraZp)
  | 0x06 => some (.f2 .aslZp)
  | 0x09 => some (.f2 .oraImm)
  | 0x0A => some (.f1 .aslAcc)
  | 0x0D => some (.f3 .oraAbs)
  | 0x0E => some (.f3 .aslAbs)
  | 0x11 => some (.f2 .oraIndY)
  | 0x15 => some (.f2 .oraZpX)
  | 0x16 => some (.f2 .aslZpX)
  | 0x19 => some (.f3 .oraAbsY)
  | 0x1D => some (.f3 .oraAbsX)
  | 0x1E => some (.f3 .aslAbsX)
  | 0x21 => some (.f2 .andIndX)
  | 0x25 => some (.f2 .andZp)
  | 0x29 => some (.f2 .andImm)
  | 0x2D => some (.f3 .andAbs)
  | 0x31 => some (.f2 .andIndY)
  | 0x35 => some (.f2 .andZpX)
  | 0x39 => some (.f3 .andAbsY)
  | 0x3D => some (.f3 .andAbsX)
  | 0x4C => some (.f3 .jmpAbs)
  | 0x61 => some (.f2 .adcIndX)
  | 0x65 => some (.f2 .adcZp)
  | 0x69 => some (.f2 .adcImm)
  | 0x6C => some (.f3 .jmpInd)
  | 0x6D => some (.f3 .adcAbs)
  | 0x71 => some (.f2 .adcIndY)
  | 0x75 => some (.f2 .adcZpX)
  | 0x79 => some (.f3 .adcAbsY)
  | 0x7D => some (.f3 .adcAbsX)
  | 0x81 => some (.f2 .staIndX)
  | 0x85 => some (.f2 .staZp)
  | 0x86 => some (.f2 .stxZp)
  | 0x8A => some (.f1 .txa)
  | 0x8D => some (.f3 .staAbs)
  | 0x8E => some (.f3 .stxAbs)
  | 0x91 => some (.f2 .staIndY)
  | 0x95 => some (.f2 .staZpX)
  | 0x96 => some (.f2 .stxZpY)
  | 0x98 => some (.f1 .tya)
  | 0x99 => some (.f3 .staAbsY)
  | 0x9D => some (.f3 .staAbsX)
  | 0xA1 => some (.f2 .ldaIndX)
  | 0xA2 => some (.f2 .ldxImm)
  | 0xA5 => some (.f2 .ldaZp)
  | 0xA6 => some (.f2 .ldxZp)
  | 0xA8 => some (.f1 .tay)
  | 0xA9 => some (.f2 .ldaImm)
  | 0xAA => some (.f1 .tax)
  | 0xAD => some (.f3 .ldaAbs)
  | 0xAE => some (.f3 .ldxAbs)
  | 0xB1 => some (.f2 .ldaIndY)
  | 0xB5 => some (.f2 .ldaZpX)
  | 0xB6 => some (.f2 .ldxZpY)
  | 0xB9 => some (.f3 .ldaAbsY)
  | 0xBD => some (.f3 .ldaAbsX)
  | 0xBE => some (.f3 .ldxAbsY)
  | 0xC1 => some (.f2 .cmpIndX)
  | 0xC5 => some (.f2 .cmpZp)
  | 0xC6 => some (.f2 .decZp)
  | 0xC8 => some (.f1 .iny)
  | 0xC9 => some (.f2 .cmpImm)
  | 0xCD => some (.f3 .cmpAbs)
  | 0xCE => some (.f3 .decAbs)
  | 0xD0 => some (.f2 .bne)
  | 0xD1 => some (.f2 .cmpIndY)
  | 0xD5 => some (.f2 .cmpZpX)
  | 0xD6 => some (.f2 .decZpX)
  | 0xD9 => some (.f3 .cmpAbsY)
  | 0xDD => some (.f3 .cmpAbsX)
  | 0xDE => some (.f3 .decAbsX)
  | 0xE6 => some (.f2 .incZp)
  | 0xE8 => some (.f1 .inx)
  | 0xEA => some (.f1 .nop)
  | 0xEE => some (.f3 .incAbs)
  | 0xF0 => some (.f2 .beq)
  | 0xF6 => some (.f2 .incZpX)
  | 0xFE => some (.f3 .incAbsX)
  | _ => none

/-- The instruction the standard 6502 matrix assigns to an unmapped byte of group U1 (R79, general knowledge G5); `none`
for the bytes of group U2. Both groups behave alike: the name only says what is refused. -/
def officialName (op : Byte) : Option String :=
  match op.toNat with
  | 0x08 => some "PHP"
  | 0x28 => some "PLP"
  | 0x48 => some "PHA"
  | 0x68 => some "PLA"
  | 0x20 => some "JSR"
  | 0x60 => some "RTS"
  | 0x40 => some "RTI"
  | 0x10 => some "BPL"
  | 0x30 => some "BMI"
  | 0x50 => some "BVC"
  | 0x70 => some "BVS"
  | 0x90 => some "BCC"
  | 0xB0 => some "BCS"
  | 0x18 => some "CLC"
  | 0x38 => some "SEC"
  | 0x58 => some "CLI"
  | 0x78 => some "SEI"
  | 0xB8 => some "CLV"
  | 0xD8 => some "CLD"
  | 0xF8 => some "SED"
  | 0x24 | 0x2C => some "BIT"
  | 0x26 | 0x2A | 0x2E | 0x36 | 0x3E => some "ROL"
  | 0x46 | 0x4A | 0x4E | 0x56 | 0x5E => some "LSR"
  | 0x66 | 0x6A | 0x6E | 0x76 | 0x7E => some "ROR"
  | 0x41 | 0x45 | 0x49 | 0x4D | 0x51 | 0x55 | 0x59 | 0x5D => some "EOR"
  | 0xE1 | 0xE5 | 0xE9 | 0xED | 0xF1 | 0xF5 | 0xF9 | 0xFD => some "SBC"
  | 0x84 | 0x8C | 0x94 => some "STY"
  | 0xA0 | 0xA4 | 0xAC | 0xB4 | 0xBC => some "LDY"
  | 0xC0 | 0xC4 | 0xCC => some "CPY"
  | 0xE0 | 0xE4 | 0xEC => some "CPX"
  | 0x88 => some "DEY"
  | 0xCA => some "DEX"
  | 0x9A => some "TXS"
  | 0xBA => some "TSX"
  | _ => none

/-- What the decoder says of a list of bytes. -/
inductive Decoded where
  /-- a defined instruction, and the bytes after it -/
  | instr (i : Instr) (rest : List Byte)
  /-- an opcode byte with an empty table entry (R78), with its name in the standard matrix if it has one there (R79) -/
  | unmapped (op : Byte) (official : Option String)
  /-- a defined opcode whose operand bytes are not all there -/
  | truncated (op : Byte) (missing : Nat)
  /-- no byte at all -/
  | empty
  deriving DecidableEq, Repr

/-- Decode the first instruction of a list of bytes at ascending addresses (R70, R72, R73). -/
def decode : List Byte → Decoded
  | [] => .empty
  | op :: rest =>
    match table op with
    | none => .unmapped op (officialName op)
    | some (.f1 i) => .instr i rest
    | some (.f2 f) =>
      match rest with
      | b1 :: rest' => .instr (f b1) rest'
      | [] => .truncated op 1
    | some (.f3 f) =>
      match rest with
      | b1 :: b2 :: rest' => .instr (f (mk16 b2 b1)) rest'
      | [_] => .truncated op 1
      | [] => .truncated op 2

/-- The bytes of an instruction at ascending addresses: R76's opcode byte, then the operand bytes of R73, low byte first. -/
def encode : Instr → List Byte
  | .ldaImm v => [0xA9, v]
  | .ldaZp z => [0xA5, z]
  | .ldaZpX z => [0xB5, z]
  | .ldaAbs w => [0xAD, loByte w, hiByte w]
  | .ldaAbsX w => [0xBD, loByte w, hiByte w]
  | .ldaAbsY w => [0xB9, loByte w, hiByte w]
  | .ldaIndX p => [0xA1, p]
  | .ldaIndY p => [0xB1, p]
  | .ldxImm v => [0xA2, v]
  | .ldxZp z => [0xA6, z]
  | .ldxZpY z => [0xB6, z]
  | .ldxAbs w => [0xAE, loByte w, hiByte w]
  | .ldxAbsY w => [0xBE, loByte w, hiByte w]
  | .staZp z => [0x85, z]
  | .staZpX z => [0x95, z]
  | .staAbs w => [0x8D, loByte w, hiByte w]
  | .staAbsX w => [0x9D, loByte w, hiByte w]
  | .staAbsY w => [0x99, loByte w, hiByte w]
  | .staIndX p => [0x81, p]
  | .staIndY p => [0x91, p]
  | .stxZp z => [0x86, z]
  | .stxZpY z => [0x96, z]
  | .stxAbs w => [0x8E, loByte w, hiByte w]
  | .tax => [0xAA]
  | .txa => [0x8A]
  | .tay => [0xA8]
  | .tya => [0x98]
  | .oraImm v => [0x09, v]
  | .oraZp z => [0x05, z]
  | .oraZpX z => [0x15, z]
  | .oraAbs w => [0x0D, loByte w, hiByte w]
  | .oraAbsX w => [0x1D, loByte w, hiByte w]
  | .oraAbsY w => [0x19, loByte w, hiByte w]
  | .oraIndX p => [0x01, p]
  | .oraIndY p => [0x11, p]
  | .andImm v => [0x29, v]
  | .andZp z => [0x25, z]
  | .andZpX z => [0x35, z]
  | .andAbs w => [0x2D, loByte w, hiByte w]
  | .andAbsX w => [0x3D, loByte w, hiByte w]
  | .andAbsY w => [0x39, loByte w, hiByte w]
  | .andIndX p => [0x21, p]
  | .andIndY p => [0x31, p]
  | .aslAcc => [0x0A]
  | .aslZp z => [0x06, z]
  | .aslZpX z => [0x16, z]
  | .aslAbs w => [0x0E, loByte w, hiByte w]
  | .aslAbsX w => [0x1E, loByte w, hiByte w]
  | .adcImm v => [0x69, v]
  | .adcZp z => [0x65, z]
  | .adcZpX z => [0x75, z]
  | .adcAbs w => [0x6D, loByte w, hiByte w]
  | .adcAbsX w => [0x7D, loByte w, hiByte w]
  | .adcAbsY w => [0x79, loByte w, hiByte w]
  | .adcIndX p => [0x61, p]
  | .adcIndY p => [0x71, p]
  | .cmpImm v => [0xC9, v]
  | .cmpZp z => [0xC5, z]
  | .cmpZpX z => [0xD5, z]
  | .cmpAbs w => [0xCD, loByte w, hiByte w]
  | .cmpAbsX w => [0xDD, loByte w, hiByte w]
  | .cmpAbsY w => [0xD9, loByte w, hiByte w]
  | .cmpIndX p => [0xC1, p]
  | .cmpIndY p => [0xD1, p]
  | .incZp z => [0xE6, z]
  | .incZpX z => [0xF6, z]
  | .incAbs w => [0xEE, loByte w, hiByte w]
  | .incAbsX w => [0xFE, loByte w, hiByte w]
  | .decZp z => [0xC6, z]
  | .decZpX z => [0xD6, z]
  | .decAbs w => [0xCE, loByte w, hiByte w]
  | .decAbsX w => [0xDE, loByte w, hiByte w]
  | .inx => [0xE8]
  | .iny => [0xC8]
  | .jmpAbs w => [0x4C, loByte w, hiByte w]
  | .jmpInd w => [0x6C, loByte w, hiByte w]
  | .beq d => [0xF0, d]
  | .bne d => [0xD0, d]
  | .nop => [0xEA]
  | .brk => [0x00]

/-- The length of an instruction in bytes (R70). -/
def Instr.length (i : Instr) : Nat := (encode i).length

/-- The three bytes an opcode-table number stands for: bit 0 is the least significant bit of the first byte, bits 15..8 the
second byte, bits 23..16 the third; bits from `nbits` on are 0. -/
def tableWordBytes (nbits w : Nat) : List Byte :=
  let v := w % 2 ^ nbits
  [BitVec.ofNat 8 v, BitVec.ofNat 8 (v / 256), BitVec.ofNat 8 (v / 65536)]

/-- The instruction the decoder reads from an opcode-table number; `none` where it refuses. -/
def decodeTableWord (nbits w : Nat) : Option Instr :=
  match decode (tableWordBytes nbits w) with
  | .instr i _ => some i
  | _ => none

end Sys2Proof
end

