-- ==== Sys2Proof/Config.lean ====
section
/-! DEFINITION. What is fixed for the machine (00_scope.md R5) and the one free value, the random source's draw. -/

namespace Sys2Proof.Config

/-- The memory size of the reset machine: the default the spec states for `MEM_SIZE` (R5, D5).
The size itself is a field of `State`, so a statement about every state holds for every size (log 1). -/
def memSizeDefault : Nat := 65535

/-- The entry address of the reset machine. DESIGN CHOICE (log 2, unsafe): `ENTRY` is an open parameter (R5, R242, D24);
0x0600 is the origin of the spec's own examples. `Machine.State.construct` takes any entry. -/
def entry : Word := 0x0600

/-- `TRAP_ADDR`: the one address whose reads return a draw (R5, R44). -/
def trapAddr : Word := 0x00FE

/-- `SP_RESET`: the reset value of the stack pointer (R5, R10). -/
def spReset : Byte := 0xFF

/-- The random source (R27, R44, D19): the byte the `k`-th engine read of the trap address returns.
A FREE VALUE (log 4, safe): it has no body, so no proof can know a draw, relate two draws, or assume a law. -/
opaque draw : Nat → Byte

end Sys2Proof.Config
end

