-- ==== Sys2Proof/Machine/State.lean ====
section
/-! DEFINITION. The whole state of the machine as plain data (10_state.md), the reasons recorded in it, and the state
right after reset (R29, R240). -/

namespace Sys2Proof.Machine

/-- The two fatal error kinds (R210), as the fault latch records them (R21). They are RECORDED IN THE STATE: taking one is
a next state (R214, log 5), so no step of this model answers `Outcome.fault`. -/
inductive Fault where
  /-- `OutOfBounds(addr, pc)`: raised by `memRead` and `memWrite` on an address `>= MEM_SIZE` (R42, R43, R211); `pc` is the
  address of the opcode byte of the instruction in progress. Safe: it is the spec's own fault. -/
  | outOfBounds (addr pc : Word)
  /-- `InvalidOpcode(op, pc)`: raised by `fetchInstr` on an opcode byte with no table entry (R78, R212). Safe: it is the
  spec's own fault. -/
  | invalidOpcode (op : Byte) (pc : Word)
  deriving DecidableEq, Repr

/-- Why the model would stop without a meaning. -/
inductive Refusal where
  /-- Raised only by an arm of `exec` with no meaning yet; every arm has one, so nothing raises it. Safe. -/
  | notModelled (mnemonic : String)
  deriving DecidableEq, Repr

/-- The cells `M[0 .. MEM_SIZE-1]` (R24) as (address, byte) pairs in one canonical form: see `Memory.wf`. -/
abbrev Memory := List Host.Cell

/-- What an unlisted address reads as: the address space is "zero-initialized" (R24, R240). -/
def Memory.blank : Byte := 0

/-- The canonical form: addresses strictly rising, and no cell holding what an unlisted address reads as. -/
abbrev Memory.wf (m : Memory) : Prop :=
  m.Pairwise (fun c d => c.1 < d.1) ∧ ∀ c ∈ m, c.2 ≠ Memory.blank

/-- All the state the spec gives the machine (R10, R14, R16, R20, R21, R24; nothing else is state, R22, R23, R28), the
size its memory was built with, and the model's own draw counter. -/
structure State where
  /-- `A`, the accumulator (R10) -/
  a : Byte
  /-- `X`, index X (R10) -/
  x : Byte
  /-- `Y`, index Y (R10) -/
  y : Byte
  /-- `SP`, the inert stack pointer (R10, R12) -/
  sp : Byte
  /-- `PC`, the program counter (R14) -/
  pc : Word
  /-- `C` (R16) -/
  carry : Bool
  /-- `Z` (R16) -/
  zero : Bool
  /-- `I`, inert (R16, R19) -/
  interruptDisable : Bool
  /-- `D`, inert (R16, R19) -/
  decimalMode : Bool
  /-- `B` (R16) -/
  breakFlag : Bool
  /-- `V` (R16) -/
  overflow : Bool
  /-- `N` (R16) -/
  negative : Bool
  /-- `RUNNING` (R20) -/
  running : Bool
  /-- `FAULT`, the fault latch; `none` is the spec's `None` (R21) -/
  fault : Option Fault
  /-- `M`, the address space's cells (R24), the stored cell at the trap address among them (R26) -/
  mem : Memory
  /-- `MEM_SIZE`, the length the address space was created with (R5, R24). Fixed at construction: no step writes it. It
  stands here, not in Config, so that every statement holds for every size (log 1). -/
  memSize : Nat
  /-- MODEL'S OWN (log 4): how many draws the engine has taken; the next read of the trap address returns
  `Config.draw draws`. -/
  draws : Nat
  deriving DecidableEq, Repr

/-- What a step answers. -/
abbrev StepResult := Host.Outcome State Fault Refusal

/-- The machine right after reset, which is construction (R29, R240), on a zeroed address space of the default size. -/
def State.reset : State where
  a := 0x00
  x := 0x00
  y := 0x00
  sp := Config.spReset
  pc := Config.entry
  carry := false
  zero := false
  interruptDisable := false
  decimalMode := false
  breakFlag := false
  overflow := false
  negative := false
  running := true
  fault := none
  mem := []
  memSize := Config.memSizeDefault
  draws := 0

end Sys2Proof.Machine
end

