-- ==== Sys2Proof/Machine/Ops.lean ====
section
/-! DEFINITION. The shared operations every meaning is made of: register writes, the memory array (20_memory.md R42, R43),
fault entry (60_exceptions.md R214), and `Attempt`, a part of a step that may raise a fault. There is no return from a
fault or from BRK (R222), so there is no operation for one. -/

namespace Sys2Proof.Machine

/-! Register and control writes (R10, R14, R20). -/

/-- `A <- v` -/
def State.setA (s : State) (v : Byte) : State := { s with a := v }

/-- `X <- v` -/
def State.setX (s : State) (v : Byte) : State := { s with x := v }

/-- `Y <- v` -/
def State.setY (s : State) (v : Byte) : State := { s with y := v }

/-- `PC <- v` -/
def State.setPC (s : State) (v : Word) : State := { s with pc := v }

/-- `C <- v` -/
def State.setC (s : State) (v : Bool) : State := { s with carry := v }

/-- `V <- v` -/
def State.setV (s : State) (v : Bool) : State := { s with overflow := v }

/-- `B <- v` -/
def State.setB (s : State) (v : Bool) : State := { s with breakFlag := v }

/-- `RUNNING <- false`, the only value ever written to it after reset (R20, R197) -/
def State.halt (s : State) : State := { s with running := false }

/-- the memory array replaced -/
def State.setMem (s : State) (m : Memory) : State := { s with mem := m }

/-- one draw taken from the random source (log 4) -/
def State.drew (s : State) : State := { s with draws := s.draws + 1 }

/-- Fault entry (R214), the one operation that takes a fault: `FAULT <- f; RUNNING <- false`, and nothing else. -/
def State.takeFault (s : State) (f : Fault) : State := { s with fault := some f, running := false }

/-! The memory array. -/

/-- The byte stored at an address (R24). -/
def Memory.read : Memory → Nat → Byte
  | [], _ => Memory.blank
  | (k, v) :: rest, a => if a = k then v else Memory.read rest a

/-- `M[a] <- v` (R43), keeping the canonical form: storing the blank byte removes the entry. -/
def Memory.write : Memory → Nat → Byte → Memory
  | [], a, v => if v = Memory.blank then [] else [(a, v)]
  | (k, w) :: rest, a, v =>
    if a < k then
      if v = Memory.blank then (k, w) :: rest else (a, v) :: (k, w) :: rest
    else if a = k then
      if v = Memory.blank then rest else (a, v) :: rest
    else (k, w) :: Memory.write rest a v

/-! Parts of a step that may raise a fault (R7, R215). -/

/-- The result of a part of a step: a value and the state so far, or a fault taken, which ends the step in that state. -/
inductive Attempt (α : Type) where
  | done (value : α) (s : State)
  | raised (s : State)

/-- Go on with the value, unless a fault has ended the step. -/
def Attempt.andThen {α β : Type} (r : Attempt α) (k : α → State → Attempt β) : Attempt β :=
  match r with
  | .done v s => k v s
  | .raised s => .raised s

/-- End the step: with the body's state, or in the state of the fault taken. Either is a next state (log 5). -/
def Attempt.finish {α : Type} (r : Attempt α) (body : α → State → State) : StepResult :=
  match r with
  | .done v s => .next (body v s)
  | .raised s => .next s

/-- Address validity (R41): `0 <= a < MEM_SIZE`. -/
abbrev State.validAddr (s : State) (a : Word) : Prop := a.toNat < s.memSize

/-- What a completed read of `a` returns (R42): a draw at the trap address (R44), else the cell. -/
def State.peek (s : State) (a : Word) : Byte :=
  if a = Config.trapAddr then Config.draw s.draws else s.mem.read a.toNat

/-- The state after a completed read of `a`: a read changes nothing of the machine (R42, R50); at the trap address the
model's draw counter moves on, so that the next read is a new draw (R44, log 4). -/
def State.afterRead (s : State) (a : Word) : State :=
  if a = Config.trapAddr then s.drew else s

/-- `MemRead(a, 1)` (R42): the bounds check comes first (D6). `pc0` is what a fault records (R214). -/
def memRead (pc0 a : Word) (s : State) : Attempt Byte :=
  if s.validAddr a then .done (s.peek a) (s.afterRead a)
  else .raised (s.takeFault (.outOfBounds a pc0))

/-- `MemWrite(a, 1, v)` (R43). -/
def memWrite (pc0 a : Word) (v : Byte) (s : State) : Attempt Unit :=
  if s.validAddr a then .done () (s.setMem (s.mem.write a.toNat v))
  else .raised (s.takeFault (.outOfBounds a pc0))

/-- `pc0` seen from inside the body of an instruction of `len` bytes: after resolution PC is `pc0 + len` mod 2^16 (R111). -/
def instrStart (len : Nat) (s : State) : Word := s.pc - BitVec.ofNat 16 len

end Sys2Proof.Machine
end

