-- ==== Sys2Proof/Machine/Flags.lean ====
section
/-! DEFINITION. The `flag_computation` sub-block: every flag rule of the spec (10_state.md R16 to R18,
43_arithmetic_compare_incdec.md R150, R152, R153, 42_logic_shift.md R142). -/

namespace Sys2Proof.Machine

/-- `setZN(v)` (R18): `Z <- (v == 0); N <- v[7]`. -/
def State.setZN (s : State) (v : Byte) : State := { s with zero := v == 0, negative := v.getLsbD 7 }

/-- The unbounded sum of ADC, `a + m + C` (R150). -/
def adcSum (a m : Byte) (c : Bool) : Nat := a.toNat + m.toNat + c.toNat

/-- The result of ADC: the sum `& 0xFF` (R150). -/
def adcResult (a m : Byte) (c : Bool) : Byte := BitVec.ofNat 8 (adcSum a m c)

/-- The carry out of ADC: `sum > 255` (R150). -/
def adcCarry (a m : Byte) (c : Bool) : Bool := decide (255 < adcSum a m c)

/-- `overflow(a, m, r) = ((a ^ r) & (m ^ r))[7]` (R152). -/
def overflowOf (a m r : Byte) : Bool := ((a ^^^ r) &&& (m ^^^ r)).getLsbD 7

/-- The carry of CMP: `A >= m`, unsigned (R153). -/
def cmpCarry (a m : Byte) : Bool := decide (m.toNat ≤ a.toNat)

/-- The carry of ASL: bit 7 of the value shifted (R142). -/
def aslCarry (v : Byte) : Bool := v.getLsbD 7

end Sys2Proof.Machine
end

