-- ==== Sys2Proof/Machine/Operands.lean ====
section
/-! DEFINITION. The `addressing_mode_resolver` sub-block (40_step_and_addressing.md R94 to R111), on operands already
fetched: `resolve` for the eight modes that name a data cell, `readPointer` for IND, `relTarget` for REL. IMP and ACC have
no operand and IMM is its operand byte (R94 to R96). The kinds of R107 are told apart by type: a body takes a byte (Imm,
Acc), an effective address (Addr) or a displacement (Rel), so `store` cannot meet an immediate. -/

namespace Sys2Proof.Machine

/-- A page-zero byte as the 16-bit address `0x0000 + b` (R73, R97). -/
def zext16 (b : Byte) : Word := b.setWidth 16

/-- `sext_8(b)` (R6, R106): `b` if `b < 0x80`, else `b - 256`. -/
def sext8 (b : Byte) : Int := if b.toNat < 0x80 then (b.toNat : Int) else (b.toNat : Int) - 256

/-- A branch target: `(PC + d) mod 2^16` with PC already past the offset byte (R106, R174). -/
def relTarget (pc : Word) (d : Byte) : Word := BitVec.ofInt 16 ((pc.toNat : Int) + sext8 d)

/-- The 16-bit little-endian pointer of IND (R103): low byte at `p`, high byte at `(p + 1) mod 2^16`, in that order. -/
def readPointer (pc0 p : Word) (s : State) : Attempt Word :=
  (memRead pc0 p s).andThen fun lo t =>
    (memRead pc0 (p + 1) t).andThen fun hi u => .done (mk16 hi lo) u

/-- A page-zero pointer of INDX and INDY (R104, R105): low byte at `p`, high byte at `(p + 1) & 0xFF`, in that order. -/
def readZpPointer (pc0 : Word) (p : Byte) (s : State) : Attempt Word :=
  (memRead pc0 (zext16 p) s).andThen fun lo t =>
    (memRead pc0 (zext16 (p + 1)) t).andThen fun hi u => .done (mk16 hi lo) u

/-- The length of an instruction of each form: its operand bytes (R71) and the opcode byte. -/
def formLength : MemForm → Nat
  | .zp _ | .zpX _ | .zpY _ | .indX _ | .indY _ => 2
  | .abs _ | .absX _ | .absY _ => 3

/-- The effective address (R97 to R102, R104, R105). Only the two indirect forms access memory here, so only they can
raise (R109). -/
def resolve (pc0 : Word) (m : MemForm) (s : State) : Attempt Word :=
  match m with
  | .zp z => .done (zext16 z) s
  | .zpX z => .done (zext16 (z + s.x)) s
  | .zpY z => .done (zext16 (z + s.y)) s
  | .abs w => .done w s
  | .absX w => .done (w + zext16 s.x) s
  | .absY w => .done (w + zext16 s.y) s
  | .indX p => readZpPointer pc0 (p + s.x) s
  | .indY p => (readZpPointer pc0 p s).andThen fun base t => .done (base + zext16 t.y) t

/-- An instruction that reads its cell: resolve, one data read, then the body (R108, R49). -/
def readThen (m : MemForm) (body : Byte → State → State) (s : State) : StepResult :=
  let pc0 := instrStart (formLength m) s
  ((resolve pc0 m s).andThen fun ea t => memRead pc0 ea t).finish body

/-- An instruction that stores a byte: resolve, then one data write; the cell is not read (R49, R122). -/
def storeByte (m : MemForm) (v : Byte) (s : State) : StepResult :=
  let pc0 := instrStart (formLength m) s
  ((resolve pc0 m s).andThen fun ea t => memWrite pc0 ea v t).finish fun _ t => t

/-- A read-modify-write instruction: resolve, one read, one write of `f v` to the same address, then the body on the value
read (R51). -/
def modifyThen (m : MemForm) (f : Byte → Byte) (body : Byte → State → State) (s : State) : StepResult :=
  let pc0 := instrStart (formLength m) s
  ((resolve pc0 m s).andThen fun ea t =>
    (memRead pc0 ea t).andThen fun v u =>
      (memWrite pc0 ea (f v) u).andThen fun _ w => .done v w).finish body

/-- The memory form of an instruction that accesses a data cell; `none` for the rest. -/
def memFormOf : Instr → Option MemForm
  | .ldaZp z | .ldxZp z | .staZp z | .stxZp z | .oraZp z | .andZp z | .aslZp z | .adcZp z
  | .cmpZp z | .incZp z | .decZp z => some (.zp z)
  | .ldaZpX z | .staZpX z | .oraZpX z | .andZpX z | .aslZpX z | .adcZpX z | .cmpZpX z | .incZpX z
  | .decZpX z => some (.zpX z)
  | .ldxZpY z | .stxZpY z => some (.zpY z)
  | .ldaAbs w | .ldxAbs w | .staAbs w | .stxAbs w | .oraAbs w | .andAbs w | .aslAbs w | .adcAbs w
  | .cmpAbs w | .incAbs w | .decAbs w => some (.abs w)
  | .ldaAbsX w | .staAbsX w | .oraAbsX w | .andAbsX w | .aslAbsX w | .adcAbsX w | .cmpAbsX w
  | .incAbsX w | .decAbsX w => some (.absX w)
  | .ldaAbsY w | .ldxAbsY w | .staAbsY w | .oraAbsY w | .andAbsY w | .adcAbsY w | .cmpAbsY w => some (.absY w)
  | .ldaIndX p | .staIndX p | .oraIndX p | .andIndX p | .adcIndX p | .cmpIndX p => some (.indX p)
  | .ldaIndY p | .staIndY p | .oraIndY p | .andIndY p | .adcIndY p | .cmpIndY p => some (.indY p)
  | .ldaImm _ | .ldxImm _ | .oraImm _ | .andImm _ | .adcImm _ | .cmpImm _ | .aslAcc | .tax | .txa | .tay | .tya
  | .inx | .iny | .jmpAbs _ | .jmpInd _ | .beq _ | .bne _ | .nop | .brk => none

end Sys2Proof.Machine
end

