-- ==== Sys2Proof/Machine/Arithmetic.lean ====
section
/-! DEFINITION. Add, compare, increment and decrement instructions (43_arithmetic_compare_incdec.md): ADC CMP INC DEC INX INY. -/

namespace Sys2Proof.Machine

/-- The body of ADC (R150, R151): carry and overflow of the binary sum, `A <- r; setZN(r)`. The D flag is not read. -/
def adcBody (m : Byte) (s : State) : State :=
  let r := adcResult s.a m s.carry
  (((s.setC (adcCarry s.a m s.carry)).setV (overflowOf s.a m r)).setA r).setZN r

/-- ADC IMM, 0x69 (R150, R96). -/
def execAdcImm (v : Byte) (s : State) : StepResult := .next (adcBody v s)

/-- ADC ZP, 0x65 (R150, R97). -/
def execAdcZp (z : Byte) (s : State) : StepResult := readThen (.zp z) adcBody s

/-- ADC ZPX, 0x75 (R150, R98). -/
def execAdcZpX (z : Byte) (s : State) : StepResult := readThen (.zpX z) adcBody s

/-- ADC ABS, 0x6D (R150, R100). -/
def execAdcAbs (w : Word) (s : State) : StepResult := readThen (.abs w) adcBody s

/-- ADC ABSX, 0x7D (R150, R101). -/
def execAdcAbsX (w : Word) (s : State) : StepResult := readThen (.absX w) adcBody s

/-- ADC ABSY, 0x79 (R150, R102). -/
def execAdcAbsY (w : Word) (s : State) : StepResult := readThen (.absY w) adcBody s

/-- ADC INDX, 0x61 (R150, R104). -/
def execAdcIndX (p : Byte) (s : State) : StepResult := readThen (.indX p) adcBody s

/-- ADC INDY, 0x71 (R150, R105). -/
def execAdcIndY (p : Byte) (s : State) : StepResult := readThen (.indY p) adcBody s

/-- The body of CMP (R153): `C <- A >= m`, and Z, N of `(A - m) & 0xFF`. A is not written. -/
def cmpBody (m : Byte) (s : State) : State := (s.setC (cmpCarry s.a m)).setZN (s.a - m)

/-- CMP IMM, 0xC9 (R153, R96). -/
def execCmpImm (v : Byte) (s : State) : StepResult := .next (cmpBody v s)

/-- CMP ZP, 0xC5 (R153, R97). -/
def execCmpZp (z : Byte) (s : State) : StepResult := readThen (.zp z) cmpBody s

/-- CMP ZPX, 0xD5 (R153, R98). -/
def execCmpZpX (z : Byte) (s : State) : StepResult := readThen (.zpX z) cmpBody s

/-- CMP ABS, 0xCD (R153, R100). -/
def execCmpAbs (w : Word) (s : State) : StepResult := readThen (.abs w) cmpBody s

/-- CMP ABSX, 0xDD (R153, R101). -/
def execCmpAbsX (w : Word) (s : State) : StepResult := readThen (.absX w) cmpBody s

/-- CMP ABSY, 0xD9 (R153, R102). -/
def execCmpAbsY (w : Word) (s : State) : StepResult := readThen (.absY w) cmpBody s

/-- CMP INDX, 0xC1 (R153, R104). -/
def execCmpIndX (p : Byte) (s : State) : StepResult := readThen (.indX p) cmpBody s

/-- CMP INDY, 0xD1 (R153, R105). -/
def execCmpIndY (p : Byte) (s : State) : StepResult := readThen (.indY p) cmpBody s

/-- The value INC writes back (R154): `(v + 1) & 0xFF`. -/
def incValue (v : Byte) : Byte := v + 1

/-- The flags of INC, from the value written (R154). -/
def incFlags (v : Byte) (s : State) : State := s.setZN (incValue v)

/-- INC ZP, 0xE6 (R154, R97). -/
def execIncZp (z : Byte) (s : State) : StepResult := modifyThen (.zp z) incValue incFlags s

/-- INC ZPX, 0xF6 (R154, R98). -/
def execIncZpX (z : Byte) (s : State) : StepResult := modifyThen (.zpX z) incValue incFlags s

/-- INC ABS, 0xEE (R154, R100). -/
def execIncAbs (w : Word) (s : State) : StepResult := modifyThen (.abs w) incValue incFlags s

/-- INC ABSX, 0xFE (R154, R101). -/
def execIncAbsX (w : Word) (s : State) : StepResult := modifyThen (.absX w) incValue incFlags s

/-- The value DEC writes back (R155): `(v - 1) & 0xFF`. -/
def decValue (v : Byte) : Byte := v - 1

/-- The flags of DEC, from the value written (R155). -/
def decFlags (v : Byte) (s : State) : State := s.setZN (decValue v)

/-- DEC ZP, 0xC6 (R155, R97). -/
def execDecZp (z : Byte) (s : State) : StepResult := modifyThen (.zp z) decValue decFlags s

/-- DEC ZPX, 0xD6 (R155, R98). -/
def execDecZpX (z : Byte) (s : State) : StepResult := modifyThen (.zpX z) decValue decFlags s

/-- DEC ABS, 0xCE (R155, R100). -/
def execDecAbs (w : Word) (s : State) : StepResult := modifyThen (.abs w) decValue decFlags s

/-- DEC ABSX, 0xDE (R155, R101). -/
def execDecAbsX (w : Word) (s : State) : StepResult := modifyThen (.absX w) decValue decFlags s

/-- INX IMP, 0xE8 (R156): `X <- (X + 1) & 0xFF; setZN(X)`. -/
def execInx (s : State) : StepResult := .next ((s.setX (s.x + 1)).setZN (s.x + 1))

/-- INY IMP, 0xC8 (R157): `Y <- (Y + 1) & 0xFF; setZN(Y)`. -/
def execIny (s : State) : StepResult := .next ((s.setY (s.y + 1)).setZN (s.y + 1))

end Sys2Proof.Machine
end

