-- ==== Sys2Proof/Machine/Control.lean ====
section
/-! DEFINITION. Jump, branch, no-op and break instructions (44_jump_branch_nop_brk.md): JMP BEQ BNE NOP BRK. -/

namespace Sys2Proof.Machine

/-- JMP ABS, 0x4C (R170, R100): `PC <- t`, the assembled operand. Nothing is read at the target. -/
def execJmpAbs (w : Word) (s : State) : StepResult := .next (s.setPC w)

/-- JMP IND, 0x6C (R170, R103): `PC <-` the little-endian word at the pointer and the following byte. -/
def execJmpInd (w : Word) (s : State) : StepResult :=
  (readPointer (instrStart 3 s) w s).finish fun t u => u.setPC t

/-- The common branch rule (R174): if the condition holds, the displacement is added to PC, already past the offset byte. -/
def branchIf (cond : Bool) (d : Byte) (s : State) : StepResult :=
  .next (if cond then s.setPC (relTarget s.pc d) else s)

/-- BEQ REL, 0xF0 (R172): branch when Z is set. -/
def execBeq (d : Byte) (s : State) : StepResult := branchIf s.zero d s

/-- BNE REL, 0xD0 (R173): branch when Z is clear. -/
def execBne (d : Byte) (s : State) : StepResult := branchIf (!s.zero) d s

/-- NOP IMP, 0xEA (R175): nothing. -/
def execNop (s : State) : StepResult := .next s

/-- BRK IMP, 0x00 (R176): `B <- 1; RUNNING <- false`. It is no fault: the latch is not written. -/
def execBrk (s : State) : StepResult := .next (s.setB true).halt

end Sys2Proof.Machine
end

