-- ==== Sys2Proof/Machine/LoadStore.lean ====
section
/-! DEFINITION. Load, store and transfer instructions (41_load_store_transfer.md): LDA LDX STA STX TAX TXA TAY TYA. -/

namespace Sys2Proof.Machine

/-- The body of LDA (R120): `A <- v; setZN(v)`. -/
def ldaBody (v : Byte) (s : State) : State := (s.setA v).setZN v

/-- LDA IMM, 0xA9 (R120, R96). -/
def execLdaImm (v : Byte) (s : State) : StepResult := .next (ldaBody v s)

/-- LDA ZP, 0xA5 (R120, R97). -/
def execLdaZp (z : Byte) (s : State) : StepResult := readThen (.zp z) ldaBody s

/-- LDA ZPX, 0xB5 (R120, R98). -/
def execLdaZpX (z : Byte) (s : State) : StepResult := readThen (.zpX z) ldaBody s

/-- LDA ABS, 0xAD (R120, R100). -/
def execLdaAbs (w : Word) (s : State) : StepResult := readThen (.abs w) ldaBody s

/-- LDA ABSX, 0xBD (R120, R101). -/
def execLdaAbsX (w : Word) (s : State) : StepResult := readThen (.absX w) ldaBody s

/-- LDA ABSY, 0xB9 (R120, R102). -/
def execLdaAbsY (w : Word) (s : State) : StepResult := readThen (.absY w) ldaBody s

/-- LDA INDX, 0xA1 (R120, R104). -/
def execLdaIndX (p : Byte) (s : State) : StepResult := readThen (.indX p) ldaBody s

/-- LDA INDY, 0xB1 (R120, R105). -/
def execLdaIndY (p : Byte) (s : State) : StepResult := readThen (.indY p) ldaBody s

/-- The body of LDX (R121): `X <- v; setZN(v)`. -/
def ldxBody (v : Byte) (s : State) : State := (s.setX v).setZN v

/-- LDX IMM, 0xA2 (R121, R96). -/
def execLdxImm (v : Byte) (s : State) : StepResult := .next (ldxBody v s)

/-- LDX ZP, 0xA6 (R121, R97). -/
def execLdxZp (z : Byte) (s : State) : StepResult := readThen (.zp z) ldxBody s

/-- LDX ZPY, 0xB6 (R121, R99). -/
def execLdxZpY (z : Byte) (s : State) : StepResult := readThen (.zpY z) ldxBody s

/-- LDX ABS, 0xAE (R121, R100). -/
def execLdxAbs (w : Word) (s : State) : StepResult := readThen (.abs w) ldxBody s

/-- LDX ABSY, 0xBE (R121, R102). -/
def execLdxAbsY (w : Word) (s : State) : StepResult := readThen (.absY w) ldxBody s

/-- STA ZP, 0x85 (R122, R97). -/
def execStaZp (z : Byte) (s : State) : StepResult := storeByte (.zp z) s.a s

/-- STA ZPX, 0x95 (R122, R98). -/
def execStaZpX (z : Byte) (s : State) : StepResult := storeByte (.zpX z) s.a s

/-- STA ABS, 0x8D (R122, R100). -/
def execStaAbs (w : Word) (s : State) : StepResult := storeByte (.abs w) s.a s

/-- STA ABSX, 0x9D (R122, R101). -/
def execStaAbsX (w : Word) (s : State) : StepResult := storeByte (.absX w) s.a s

/-- STA ABSY, 0x99 (R122, R102). -/
def execStaAbsY (w : Word) (s : State) : StepResult := storeByte (.absY w) s.a s

/-- STA INDX, 0x81 (R122, R104). -/
def execStaIndX (p : Byte) (s : State) : StepResult := storeByte (.indX p) s.a s

/-- STA INDY, 0x91 (R122, R105). -/
def execStaIndY (p : Byte) (s : State) : StepResult := storeByte (.indY p) s.a s

/-- STX ZP, 0x86 (R123, R97). -/
def execStxZp (z : Byte) (s : State) : StepResult := storeByte (.zp z) s.x s

/-- STX ZPY, 0x96 (R123, R99). -/
def execStxZpY (z : Byte) (s : State) : StepResult := storeByte (.zpY z) s.x s

/-- STX ABS, 0x8E (R123, R100). -/
def execStxAbs (w : Word) (s : State) : StepResult := storeByte (.abs w) s.x s

/-- TAX IMP, 0xAA (R124): `X <- A; setZN(X)`. -/
def execTax (s : State) : StepResult := .next ((s.setX s.a).setZN s.a)

/-- TXA IMP, 0x8A (R125): `A <- X; setZN(A)`. -/
def execTxa (s : State) : StepResult := .next ((s.setA s.x).setZN s.x)

/-- TAY IMP, 0xA8 (R126): `Y <- A; setZN(Y)`. -/
def execTay (s : State) : StepResult := .next ((s.setY s.a).setZN s.a)

/-- TYA IMP, 0x98 (R127): `A <- Y; setZN(A)`. -/
def execTya (s : State) : StepResult := .next ((s.setA s.y).setZN s.y)

end Sys2Proof.Machine
end

