-- ==== Sys2Proof/Machine/LogicShift.lean ====
section
/-! DEFINITION. Logical and shift instructions (42_logic_shift.md): ORA AND ASL. -/

namespace Sys2Proof.Machine

/-- The body of ORA (R140): `A <- A | v; setZN(A)`. -/
def oraBody (v : Byte) (s : State) : State := (s.setA (s.a ||| v)).setZN (s.a ||| v)

/-- ORA IMM, 0x09 (R140, R96). -/
def execOraImm (v : Byte) (s : State) : StepResult := .next (oraBody v s)

/-- ORA ZP, 0x05 (R140, R97). -/
def execOraZp (z : Byte) (s : State) : StepResult := readThen (.zp z) oraBody s

/-- ORA ZPX, 0x15 (R140, R98). -/
def execOraZpX (z : Byte) (s : State) : StepResult := readThen (.zpX z) oraBody s

/-- ORA ABS, 0x0D (R140, R100). -/
def execOraAbs (w : Word) (s : State) : StepResult := readThen (.abs w) oraBody s

/-- ORA ABSX, 0x1D (R140, R101). -/
def execOraAbsX (w : Word) (s : State) : StepResult := readThen (.absX w) oraBody s

/-- ORA ABSY, 0x19 (R140, R102). -/
def execOraAbsY (w : Word) (s : State) : StepResult := readThen (.absY w) oraBody s

/-- ORA INDX, 0x01 (R140, R104). -/
def execOraIndX (p : Byte) (s : State) : StepResult := readThen (.indX p) oraBody s

/-- ORA INDY, 0x11 (R140, R105). -/
def execOraIndY (p : Byte) (s : State) : StepResult := readThen (.indY p) oraBody s

/-- The body of AND (R141): `A <- A & v; setZN(A)`. -/
def andBody (v : Byte) (s : State) : State := (s.setA (s.a &&& v)).setZN (s.a &&& v)

/-- AND IMM, 0x29 (R141, R96). -/
def execAndImm (v : Byte) (s : State) : StepResult := .next (andBody v s)

/-- AND ZP, 0x25 (R141, R97). -/
def execAndZp (z : Byte) (s : State) : StepResult := readThen (.zp z) andBody s

/-- AND ZPX, 0x35 (R141, R98). -/
def execAndZpX (z : Byte) (s : State) : StepResult := readThen (.zpX z) andBody s

/-- AND ABS, 0x2D (R141, R100). -/
def execAndAbs (w : Word) (s : State) : StepResult := readThen (.abs w) andBody s

/-- AND ABSX, 0x3D (R141, R101). -/
def execAndAbsX (w : Word) (s : State) : StepResult := readThen (.absX w) andBody s

/-- AND ABSY, 0x39 (R141, R102). -/
def execAndAbsY (w : Word) (s : State) : StepResult := readThen (.absY w) andBody s

/-- AND INDX, 0x21 (R141, R104). -/
def execAndIndX (p : Byte) (s : State) : StepResult := readThen (.indX p) andBody s

/-- AND INDY, 0x31 (R141, R105). -/
def execAndIndY (p : Byte) (s : State) : StepResult := readThen (.indY p) andBody s

/-- The value ASL writes back (R142): `(v << 1) & 0xFF`. -/
def aslValue (v : Byte) : Byte := v <<< 1

/-- The flags of ASL on the value shifted (R142): `C <- v[7]`, and Z, N of the result. -/
def aslFlags (v : Byte) (s : State) : State := (s.setC (aslCarry v)).setZN (aslValue v)

/-- ASL ACC, 0x0A (R142, R95): the value shifted is A and the result goes to A. -/
def execAslAcc (s : State) : StepResult := .next (aslFlags s.a (s.setA (aslValue s.a)))

/-- ASL ZP, 0x06 (R142, R97). -/
def execAslZp (z : Byte) (s : State) : StepResult := modifyThen (.zp z) aslValue aslFlags s

/-- ASL ZPX, 0x16 (R142, R98). -/
def execAslZpX (z : Byte) (s : State) : StepResult := modifyThen (.zpX z) aslValue aslFlags s

/-- ASL ABS, 0x0E (R142, R100). -/
def execAslAbs (w : Word) (s : State) : StepResult := modifyThen (.abs w) aslValue aslFlags s

/-- ASL ABSX, 0x1E (R142, R101). -/
def execAslAbsX (w : Word) (s : State) : StepResult := modifyThen (.absX w) aslValue aslFlags s

end Sys2Proof.Machine
end

