-- ==== Sys2Proof/Machine/Fetch.lean ====
section
/-! DEFINITION. Fetching (40_step_and_addressing.md R90 to R92): the opcode byte, its table entry, the operand bytes the
entry's mode takes; and the placing of an instruction's bytes where the next step fetches. -/

namespace Sys2Proof.Machine

/-- `fetch8()` (R91): read the byte at PC, then advance PC mod 2^16; if the read raises, PC is not advanced. -/
def fetch8 (pc0 : Word) (s : State) : Attempt Byte :=
  (memRead pc0 s.pc s).andThen fun b t => .done b (t.setPC (t.pc + 1))

/-- `fetch16()` (R92): low byte first. -/
def fetch16 (pc0 : Word) (s : State) : Attempt Word :=
  (fetch8 pc0 s).andThen fun lo t => (fetch8 pc0 t).andThen fun hi u => .done (mk16 hi lo) u

/-- The operand fetches of a table entry (R71, R73), building its instruction. -/
def fetchOperand (pc0 : Word) (e : Entry) (s : State) : Attempt Instr :=
  match e with
  | .f1 i => .done i s
  | .f2 f => (fetch8 pc0 s).andThen fun b t => .done (f b) t
  | .f3 f => (fetch16 pc0 s).andThen fun w t => .done (f w) t

/-- The first half of a step (R90): fetch the opcode at `pc0 = PC`, look it up (`InvalidOpcode` if its entry is empty, with
no operand byte fetched, R212), fetch the operand bytes. -/
def fetchInstr (s : State) : Attempt Instr :=
  (fetch8 s.pc s).andThen fun op t =>
    match table op with
    | none => .raised (t.takeFault (.invalidOpcode op s.pc))
    | some e => fetchOperand s.pc e t

/-- Bytes stored at ascending addresses from `a`, each mod 2^16 and only where a cell exists (R70, R41). -/
def placeBytes (a : Word) : List Byte → State → State
  | [], s => s
  | b :: bs, s =>
    placeBytes (a + 1) bs (if s.validAddr a then s.setMem (s.mem.write a.toNat b) else s)

end Sys2Proof.Machine
end

