-- ==== Sys2Proof/Machine/Step.lean ====
section
/-! DEFINITION. The one transition of the engine (40_step_and_addressing.md R90) and the placing of one instruction where
it fetches. -/

namespace Sys2Proof.Machine

/-- `step()` (R90): nothing on a halted engine; else fetch and decode, then execute. A fault taken on the way is a next
state (R214, log 5). -/
def step (s : State) : Host.Outcome State Fault Refusal :=
  if s.running then
    match fetchInstr s with
    | .done i t => exec i t
    | .raised t => .next t
  else .next s

/-- The instruction of an opcode-table number stored where the next step fetches, on a running engine (log 15): three
bytes from PC, the longest instruction (R70). -/
def State.withFetchWord (s : State) (nbits w : Nat) : State :=
  placeBytes s.pc (tableWordBytes nbits w) { s with running := true }

end Sys2Proof.Machine
end

