-- ==== Sys2Proof/Machine/Accesses.lean ====
section
/-! DEFINITION. The memory accesses of one step, in order (20_memory.md R25, R49, R198). They are what the engine port
shows, not state, so they are computed beside the step and not kept in `State` (log 21). An access that raises
`OutOfBounds` did not complete and is not listed (95_test_vectors.md, conventions). -/

namespace Sys2Proof.Machine

/-- One completed access of the engine port (R198): every access is one byte (R48). -/
inductive Access where
  | read (a : Word)
  | write (a : Word) (v : Byte)
  deriving DecidableEq, Repr

/-- What the operand of an instruction makes its body do with memory. -/
inductive DataUse where
  /-- no access after the fetches -/
  | nothing
  /-- two pointer reads (JMP IND) -/
  | pointer (w : Word)
  /-- one data read -/
  | reads (m : MemForm)
  /-- one data write of a byte -/
  | writes (m : MemForm) (v : Byte)
  /-- one data read, then one data write of `f` of the byte read -/
  | modifies (m : MemForm) (f : Byte → Byte)

/-- R49 by mnemonic (files 41 to 44): what each instruction does with its cell, in a state. -/
def dataUse (i : Instr) (s : State) : DataUse :=
  match memFormOf i with
  | none =>
    match i with
    | .jmpInd w => .pointer w
    | _ => .nothing
  | some m =>
    match i.mnemonic with
    | .sta => .writes m s.a
    | .stx => .writes m s.x
    | .asl => .modifies m (fun v => v <<< 1)
    | .inc => .modifies m (fun v => v + 1)
    | .dec => .modifies m (fun v => v - 1)
    | _ => .reads m

/-- A read of `a`, listed if it completes. -/
def listRead (s : State) (a : Word) : List Access :=
  if a.toNat < s.memSize then [.read a] else []

/-- Two reads in order; the second happens only if the first completed. -/
def listTwo (s : State) (a b : Word) : List Access :=
  if a.toNat < s.memSize then .read a :: listRead s b else []

/-- The pointer reads of resolution (R103 to R105), low byte first. -/
def pointerAccesses (m : MemForm) (s : State) : List Access :=
  match m with
  | .indX p => listTwo s (zext16 (p + s.x)) (zext16 (p + s.x + 1))
  | .indY p => listTwo s (zext16 p) (zext16 (p + 1))
  | .zp _ | .zpX _ | .zpY _ | .abs _ | .absX _ | .absY _ => []

/-- The accesses of an instruction's body, run in `s`: the pointer reads, then the data accesses at the address resolved. -/
def dataAccesses (u : DataUse) (s : State) : List Access :=
  match u with
  | .nothing => []
  | .pointer w => listTwo s w (w + 1)
  | .reads m =>
    pointerAccesses m s ++
      match resolve (instrStart (formLength m) s) m s with
      | .done ea _ => listRead s ea
      | .raised _ => []
  | .writes m v =>
    pointerAccesses m s ++
      match resolve (instrStart (formLength m) s) m s with
      | .done ea _ => if ea.toNat < s.memSize then [.write ea v] else []
      | .raised _ => []
  | .modifies m f =>
    pointerAccesses m s ++
      match resolve (instrStart (formLength m) s) m s with
      | .done ea t =>
        match memRead (instrStart (formLength m) s) ea t with
        | .done v _ => [.read ea, .write ea (f v)]
        | .raised _ => []
      | .raised _ => []

/-- The fetches of a step (R90): the opcode byte at PC and the operand bytes its entry takes, up to the first that is out
of bounds. -/
def fetchAccesses (s : State) : List Access :=
  match fetch8 s.pc s with
  | .raised _ => []
  | .done op t =>
    .read s.pc ::
      match table op with
      | none => []
      | some (.f1 _) => []
      | some (.f2 _) => listRead t t.pc
      | some (.f3 _) => listTwo t t.pc (t.pc + 1)

/-- All the accesses of one step, in order (R49); none on a halted engine. -/
def stepAccesses (s : State) : List Access :=
  if s.running then
    fetchAccesses s ++
      match fetchInstr s with
      | .done i t => dataAccesses (dataUse i t) t
      | .raised _ => []
  else []

end Sys2Proof.Machine
end

