-- ==== Sys2Proof/Machine/HostPort.lean ====
section
/-! DEFINITION. What the outside world can do to the machine (50_interfaces.md, 20_memory.md R54 to R56): the control
surface `new`, `step`, `get_running`, `request_stop`, the fault report, the loader's writes, an observer's read, and the
host's moves between steps. -/

namespace Sys2Proof.Machine

/-! Construction and the control surface (R192 to R197). -/

/-- `new(address_space, entry_point)` (R192, R240, R29): every piece of engine state at its reset value, PC at the entry,
the address space as it is. A second engine on a used address space keeps its bytes (R241). `draws` is where the random
source stands: it is no part of the engine, and constructing one does not rewind it (R27, log 4). -/
def State.construct (size : Nat) (m : Memory) (entry : Word) (draws : Nat) : State :=
  { State.reset with pc := entry, mem := m, memSize := size, draws := draws }

/-- `get_running()` (R194). -/
def State.getRunning (s : State) : Bool := s.running

/-- `request_stop()` (R196): `RUNNING <- false`; neither B nor FAULT is written. -/
def State.requestStop (s : State) : State := s.halt

/-- The result of the `step()` call that led from `before` to `after`: the fault it failed with, or `none` where it
returned normally (R193, R195, D20). A call on a halted engine returns normally. -/
def stepReport (before after : State) : Option Fault :=
  if before.running then after.fault else none

/-! The host-side memory operations (R54 to R56). The host may present any integer address, and the address is not
wrapped. An `OutOfBounds` here goes back to the host caller and touches neither RUNNING nor FAULT. -/

/-- The address of a cell, if the integer names one: `0 <= a < MEM_SIZE` (R54). -/
def hostCell (size : Nat) (a : Int) : Option Nat :=
  if 0 ≤ a ∧ a < size then some a.toNat else none

/-- What a host-side read answers. -/
inductive HostRead where
  | byte (v : Byte)
  | outOfBounds (a : Int)
  deriving DecidableEq, Repr

/-- `read(address)` by the host or an observer (R54, R199). At the trap address the answer is `drawn`, the byte the
environment chose for this read (R44, D19, log 18): a statement about a read holds for every `drawn`. -/
def hostRead (size : Nat) (m : Memory) (drawn : Byte) (a : Int) : HostRead :=
  match hostCell size a with
  | none => .outOfBounds a
  | some k => if k = Config.trapAddr.toNat then .byte drawn else .byte (m.read k)

/-- What a host-side write leaves: the memory, and the first address that failed, if one did. -/
structure HostWrite where
  mem : Memory
  failed : Option Int
  deriving DecidableEq, Repr

/-- `write(address, byte)` by the host (R54, R43). -/
def hostWrite (size : Nat) (m : Memory) (a : Int) (v : Byte) : HostWrite :=
  match hostCell size a with
  | none => ⟨m, some a⟩
  | some k => ⟨m.write k v, none⟩

/-- `write_bulk(address, bytes)` (R55): ascending, stopping at the first failure with the earlier cells written. -/
def writeBulk (size : Nat) (m : Memory) (a : Int) : List Byte → HostWrite
  | [] => ⟨m, none⟩
  | v :: vs =>
    match hostWrite size m a v with
    | ⟨m', none⟩ => writeBulk size m' (a + 1) vs
    | stopped => stopped

/-- `fill(address, count, value)` (R56, D17): `count + 1` cells, ascending, each through `write`. -/
def fill (size : Nat) (m : Memory) (a : Int) (count : Nat) (v : Byte) : HostWrite :=
  writeBulk size m a (List.replicate (count + 1) v)

/-- One operation of the loader (R57, R200). -/
inductive LoaderOp where
  | write (a : Int) (v : Byte)
  | writeBulk (a : Int) (bytes : List Byte)
  | fill (a : Int) (count : Nat) (v : Byte)
  deriving DecidableEq, Repr

/-- The memory an operation of the loader leaves, whether or not it failed on the way. -/
def LoaderOp.apply (size : Nat) (m : Memory) : LoaderOp → HostWrite
  | .write a v => hostWrite size m a v
  | .writeBulk a bytes => Sys2Proof.Machine.writeBulk size m a bytes
  | .fill a count v => Sys2Proof.Machine.fill size m a count v

/-- Boot (R240, R243, R244): create the zeroed address space, let the loader work, construct the engine. All of it stands
before the first step: the host has no write afterwards (R200, D21, log 14). -/
def boot (size : Nat) (entry : Word) (draws : Nat) (ops : List LoaderOp) : State :=
  State.construct size (ops.foldl (fun m op => (op.apply size m).mem) []) entry draws

/-! The host's moves after boot (R191, R193, R196, R199, R202). -/

/-- A move of an agent outside the engine: call `step()`, request a stop, or read a byte as an observer. A stop request
lands between two steps, never inside one (R196, D22, log 13). -/
inductive Move where
  | step
  | requestStop
  | observe (a : Int) (drawn : Byte)
  deriving DecidableEq, Repr

/-- The state a move leaves. An observer's read changes nothing (R50, R199). -/
def Move.apply (s : State) : Move → StepResult
  | .step => Sys2Proof.Machine.step s
  | .requestStop => .next s.requestStop
  | .observe _ _ => .next s

/-- What an observer's read answers in a state (R199). -/
def observe (s : State) (a : Int) (drawn : Byte) : HostRead := hostRead s.memSize s.mem drawn a

/-- A schedule of moves, in order. -/
def runMoves (s : State) : List Move → StepResult
  | [] => .next s
  | m :: ms =>
    match m.apply s with
    | .next t => runMoves t ms
    | .fault f => .fault f
    | .refused r => .refused r

end Sys2Proof.Machine
end

