-- ==== Sys2Proof/Safety.lean ====
section
/-! DEFINITION. How a run ends (60_exceptions.md R221, D26), what an instruction needs to run without a fault, and the
invariant of the machine's states. -/

namespace Sys2Proof.Machine

/-- A run has ended when RUNNING is false (R221). -/
def State.ended (s : State) : Bool := !s.running

/-- Ended well: the program executed BRK (R221, D26). -/
def State.endedWell (s : State) : Bool := s.ended && s.fault.isNone && s.breakFlag

/-- Cut short by the host (R221, D26). -/
def State.cutShort (s : State) : Bool := s.ended && s.fault.isNone && !s.breakFlag

/-- Faulted (R221, D26). -/
def State.faulted (s : State) : Bool := s.ended && s.fault.isSome

/-- Every cell an instruction with a memory operand touches exists: its operand resolves without a fault, to an address of
the memory. This is what it needs to run without `OutOfBounds` (R109, R211). -/
def reachable (m : MemForm) (s : State) : Bool :=
  match resolve (instrStart (formLength m) s) m s with
  | .done ea t => decide (t.validAddr ea)
  | .raised _ => false

/-- The invariant: the memory is canonical and lies inside its size, the size is one a machine may be built with (R5), SP,
I and D hold their reset values (R12, R19, D23), and a latched fault or a set B means a halted engine, never both (R176,
R214, R216, R221). -/
structure State.Inv (s : State) : Prop where
  mem_wf : s.mem.wf
  mem_inside : ∀ c ∈ s.mem, c.1 < s.memSize
  size_allowed : memSizeAllowed s.memSize = true
  sp_inert : s.sp = Config.spReset
  i_inert : s.interruptDisable = false
  d_inert : s.decimalMode = false
  fault_halts : s.fault ≠ none → s.running = false
  break_halts : s.breakFlag = true → s.running = false
  fault_excludes_break : s.fault ≠ none → s.breakFlag = false

end Sys2Proof.Machine
end

