-- ==== Sys2Proof/Certificates/Slice0/Obligations.lean ====
section
/-! DEFINITION. The statements about the machine, from the numbered rules of spec/, for the provers. Each docstring names
the rules it formalises and, where a clause rests on a choice the spec marks as its own, that choice. -/

open Sys2Proof Sys2Proof.Machine

namespace Sys2Proof.Claims

/-! Shapes shared by the statements. -/

/-- The address of the opcode byte, seen from the body of an instruction (R111): PC less the instruction's length. -/
def start (i : Instr) (s : State) : Word := s.pc - BitVec.ofNat 16 i.length

/-- `i` reads the cell its operand resolves to and applies `body` to the byte; a read out of bounds is a fault with
nothing else changed, and a pointer read out of bounds ends the instruction in resolution (R120's pattern, R211). -/
def ReadsCell (i : Instr) (body : Byte → State → State) : Prop :=
  ∀ m s, memFormOf i = some m →
    (∀ ea t, resolve (start i s) m s = .done ea t → t.validAddr ea →
      exec i s = .next (body (t.peek ea) (t.afterRead ea))) ∧
    (∀ ea t, resolve (start i s) m s = .done ea t → ¬ t.validAddr ea →
      exec i s = .next (t.takeFault (.outOfBounds ea (start i s)))) ∧
    (∀ t, resolve (start i s) m s = .raised t → exec i s = .next t)

/-- `i` stores one byte, `reg` of the state, at the address its operand resolves to, without reading it (R122's pattern). -/
def StoresCell (i : Instr) (reg : State → Byte) : Prop :=
  ∀ m s, memFormOf i = some m →
    (∀ ea t, resolve (start i s) m s = .done ea t → t.validAddr ea →
      exec i s = .next { t with mem := t.mem.write ea.toNat (reg s) }) ∧
    (∀ ea t, resolve (start i s) m s = .done ea t → ¬ t.validAddr ea →
      exec i s = .next (t.takeFault (.outOfBounds ea (start i s)))) ∧
    (∀ t, resolve (start i s) m s = .raised t → exec i s = .next t)

/-- `i` reads its cell once, writes `f` of the byte read back to it, and applies `flags` to the byte read (R154's pattern,
R51). -/
def ModifiesCell (i : Instr) (f : Byte → Byte) (flags : Byte → State → State) : Prop :=
  ∀ m s, memFormOf i = some m →
    (∀ ea t, resolve (start i s) m s = .done ea t → t.validAddr ea →
      exec i s = .next (flags (t.peek ea)
        { t.afterRead ea with mem := t.mem.write ea.toNat (f (t.peek ea)) })) ∧
    (∀ ea t, resolve (start i s) m s = .done ea t → ¬ t.validAddr ea →
      exec i s = .next (t.takeFault (.outOfBounds ea (start i s)))) ∧
    (∀ t, resolve (start i s) m s = .raised t → exec i s = .next t)

/-- Z and N of a result byte (R18): Z is 1 iff it is 0, N is its bit 7. -/
def withZN (r : Byte) (s : State) : State := { s with zero := decide (r.toNat = 0), negative := decide (128 ≤ r.toNat) }

/-- `b - 256` for `b >= 0x80` (R6): the signed reading of a byte. -/
def signed (b : Byte) : Int := if b.toNat < 128 then b.toNat else (b.toNat : Int) - 256

/-- The mnemonics that write a data cell (R122, R123, R142, R154, R155). -/
def storing : List Mnemonic := [.sta, .stx, .asl, .inc, .dec]

/-- A list of accesses done again on a memory: its writes in order. -/
def replay (m : Memory) (acc : List Access) : Memory :=
  acc.foldl (fun m a => match a with
    | .read _ => m
    | .write a v => m.write a.toNat v) m

/-- Is the access a write? -/
def isWrite : Access → Bool
  | .read _ => false
  | .write _ _ => true

/-- The address of an access. -/
def addressOf : Access → Word
  | .read a => a
  | .write a _ => a

end Sys2Proof.Claims

open Sys2Proof.Claims

/-! ## Reset and boot -/

/-- R29, R240, R192: construction gives every register and flag its reset value, PC the entry, and leaves the address space
as it is; a fresh address space reads 0x00 everywhere; and `State.reset` is construction on one. The values of A, X, Y, the
flags, RUNNING and FAULT are the spec's own choices D1, D2, D20; the default entry and draw position are the model's
(log 2, log 4). -/
def Obligations.ConstructionGivesResetValues : Prop :=
  (∀ (size : Nat) (m : Memory) (entry : Word) (draws : Nat), State.construct size m entry draws =
    { a := 0, x := 0, y := 0, sp := 0xFF, pc := entry, carry := false, zero := false, interruptDisable := false,
      decimalMode := false, breakFlag := false, overflow := false, negative := false, running := true, fault := none,
      mem := m, memSize := size, draws := draws }) ∧
  (∀ a, Memory.read [] a = 0) ∧
  State.reset = State.construct 65535 [] 0x0600 0

/-- Boot (R243, R244, D5): for every allowed memory size, entry and loader work, whether or not some of it failed, the machine
before its first step meets the invariant. -/
def Obligations.BootMeetsInvariant : Prop :=
  ∀ (size : Nat) (entry : Word) (draws : Nat) (ops : List LoaderOp), memSizeAllowed size = true →
    (boot size entry draws ops).Inv

/-- The reset state meets the invariant. -/
def Obligations.ResetMeetsInvariant : Prop := State.reset.Inv

/-! ## Memory -/

/-- R42: the bounds check first (D6), then the trap address, whose read is a draw (D19; the draw's form, a free value at the
model's counter, is log 4), else the stored byte, with no effect on the state. -/
def Obligations.MemReadChecksBoundsThenTrap : Prop :=
  ∀ (pc0 a : Word) (s : State),
    (s.memSize ≤ a.toNat → memRead pc0 a s = .raised (s.takeFault (.outOfBounds a pc0))) ∧
    (a.toNat < s.memSize → a = 0x00FE →
      memRead pc0 a s = .done (Config.draw s.draws) { s with draws := s.draws + 1 }) ∧
    (a.toNat < s.memSize → a ≠ 0x00FE → memRead pc0 a s = .done (s.mem.read a.toNat) s)

/-- R43: a write out of bounds fails and stores nothing; a write in bounds stores the byte, which every later read returns
except at 0xFE, where the value written is never observable (R44, D19: the read is a draw); every other cell keeps its byte
and nothing else changes. The draw as a free value at the model's counter is log 4, the canonical form kept is log 16. -/
def Obligations.MemWriteStoresOneByte : Prop :=
  ∀ (pc0 a : Word) (v : Byte) (s : State), s.mem.wf →
    (s.memSize ≤ a.toNat → memWrite pc0 a v s = .raised (s.takeFault (.outOfBounds a pc0))) ∧
    (a.toNat < s.memSize → ∃ m, memWrite pc0 a v s = .done () { s with mem := m } ∧
      m.read a.toNat = v ∧ (∀ b, b ≠ a.toNat → m.read b = s.mem.read b) ∧ m.wf ∧
      (∀ pc1, a ≠ 0x00FE → memRead pc1 a { s with mem := m } = .done v { s with mem := m }) ∧
      (∀ pc1, a = 0x00FE → memRead pc1 a { s with mem := m } =
        .done (Config.draw s.draws) { s with mem := m, draws := s.draws + 1 }))

/-- R41: an access succeeds iff its address is below MEM_SIZE; with 65535 only 0xFFFF is invalid, and with 65536 no step
ever raises `OutOfBounds`. -/
def Obligations.ValidityIsTheMemorySize : Prop :=
  (∀ (pc0 a : Word) (s : State), (∃ v t, memRead pc0 a s = .done v t) ↔ a.toNat < s.memSize) ∧
  (∀ (pc0 a : Word) (v : Byte) (s : State), (∃ t, memWrite pc0 a v s = .done () t) ↔ a.toNat < s.memSize) ∧
  (∀ (s : State) (a : Word), s.memSize = 65535 → (s.validAddr a ↔ a ≠ 0xFFFF)) ∧
  (∀ (s : State) (a : Word), s.memSize = 65536 → s.validAddr a) ∧
  (∀ (s t : State) (a pc : Word), s.memSize = 65536 → s.fault = none → step s = .next t →
    t.fault ≠ some (.outOfBounds a pc))

/-- R54, R44: a host-side read or write of an address that is negative or `>= MEM_SIZE` fails and changes nothing; inside, a
write stores its byte, a read returns the stored byte, and at 0xFE a read returns whatever the environment drew (D19; the
draw as an argument of the read is the model's choice, log 18). -/
def Obligations.HostAccessIsBoundsChecked : Prop :=
  ∀ (size : Nat) (m : Memory) (a : Int) (v drawn : Byte), m.wf →
    ((a < 0 ∨ (size : Int) ≤ a) →
      hostRead size m drawn a = .outOfBounds a ∧ hostWrite size m a v = ⟨m, some a⟩) ∧
    (0 ≤ a → a < size → (hostWrite size m a v).failed = none ∧
      hostRead size (hostWrite size m a v).mem drawn a = .byte (if a = 0xFE then drawn else v) ∧
      ∀ b : Int, b ≠ a → hostRead size (hostWrite size m a v).mem drawn b = hostRead size m drawn b)

/-- R55: `write_bulk` stores byte `i` at `address + i`, in order and unwrapped, up to the first position that fails, leaving
the prior positions written and every other cell as it was. -/
def Obligations.WriteBulkStopsAtFirstFailure : Prop :=
  ∀ (size : Nat) (m : Memory) (a : Int) (bytes : List Byte), m.wf →
    ∃ n, n ≤ bytes.length ∧
      (∀ i : Nat, i < n → 0 ≤ a + i ∧ a + i < size) ∧
      (n < bytes.length → ¬ (0 ≤ a + n ∧ a + n < size)) ∧
      (writeBulk size m a bytes).failed = (if n < bytes.length then some (a + n) else none) ∧
      (∀ i : Nat, i < n → (writeBulk size m a bytes).mem.read (a + i).toNat = bytes.getD i 0) ∧
      (∀ k : Nat, (∀ i : Nat, i < n → (k : Int) ≠ a + i) → (writeBulk size m a bytes).mem.read k = m.read k)

/-- R56 (D17: the inclusive bound is kept): `fill` with `count + 1` cells all in bounds writes the value to exactly those
cells. -/
def Obligations.FillWritesCountPlusOneCells : Prop :=
  ∀ (size : Nat) (m : Memory) (a : Int) (count : Nat) (v : Byte), m.wf → 0 ≤ a → a + count < size →
    (fill size m a count v).failed = none ∧
    ∀ k : Nat, (fill size m a count v).mem.read k = if a ≤ k ∧ (k : Int) ≤ a + count then v else m.read k

/-! ## Encoding -/

/-- R70, R72, R73, R76, R77 (the byte values are the spec's choice D4): decoding and encoding agree, both ways: a list of
bytes decodes to an instruction and a rest exactly when it is that instruction's bytes and that rest. -/
def Obligations.DecodeAndEncodeAgree : Prop :=
  ∀ (bytes : List Byte) (i : Instr) (rest : List Byte),
    decode bytes = .instr i rest ↔ bytes = encode i ++ rest

/-- R74, R76, R77 (D4): every filled entry of the table holds a pair of R76, and every pair of R76 stands at exactly one
opcode byte. -/
def Obligations.TableHoldsEachPairOnce : Prop :=
  (∀ (op : Byte) (e : Entry), table op = some e → pairDefined e.pair.1 e.pair.2 = true) ∧
  ∀ (m : Mnemonic) (mode : Mode), pairDefined m mode = true →
    ∃ op, (table op).map Entry.pair = some (m, mode) ∧
      ∀ op', (table op').map Entry.pair = some (m, mode) → op' = op

/-- R71, R73, R46: the memory form of an instruction is its mode with its assembled operand: the operand byte, or the word whose
low byte is the first operand byte. The instructions with one are those of the eight modes that name a data cell, JMP
excepted (R107, R170). -/
def Obligations.MemoryFormsAreTheOperandBytes : Prop :=
  (∀ (i : Instr) (m : MemForm), memFormOf i = some m →
    match m with
    | .zp b => i.mode = .zp ∧ (encode i).tail = [b]
    | .zpX b => i.mode = .zpX ∧ (encode i).tail = [b]
    | .zpY b => i.mode = .zpY ∧ (encode i).tail = [b]
    | .indX b => i.mode = .indX ∧ (encode i).tail = [b]
    | .indY b => i.mode = .indY ∧ (encode i).tail = [b]
    | .abs w => i.mode = .abs ∧ ∃ lo hi, (encode i).tail = [lo, hi] ∧ w.toNat = hi.toNat * 256 + lo.toNat
    | .absX w => i.mode = .absX ∧ ∃ lo hi, (encode i).tail = [lo, hi] ∧ w.toNat = hi.toNat * 256 + lo.toNat
    | .absY w => i.mode = .absY ∧ ∃ lo hi, (encode i).tail = [lo, hi] ∧ w.toNat = hi.toNat * 256 + lo.toNat) ∧
  ∀ (i : Instr), memFormOf i = none ↔ (i.mode ∈ [Mode.imp, .acc, .imm, .ind, .rel] ∨ i.mnemonic = .jmp)

/-- R80: operand bytes are unconstrained: whether three bytes decode depends on the first alone, and a defined opcode decodes
with every value of bytes 1 and 2. -/
def Obligations.OperandBytesNeverMakeAnInstructionIllegal : Prop :=
  ∀ (op b1 b2 : Byte), (∃ i rest, decode [op, b1, b2] = .instr i rest) ↔ (table op).isSome = true

/-- R78, R79 and section 4 of 95_test_vectors.md (D3): of the 256 opcode bytes 80 decode, 71 are refused under a standard
6502 name and 105 without one. -/
def Obligations.OpcodeBytesSplitEightySeventyOneHundredFive : Prop :=
  let all : List Byte := (List.range 256).map (BitVec.ofNat 8)
  (all.filter fun op => (table op).isSome).length = 80 ∧
  (all.filter fun op => (table op).isNone && (officialName op).isSome).length = 71 ∧
  (all.filter fun op => (table op).isNone && (officialName op).isNone).length = 105

/-- Words written out from R76 and R73, at least one for each of the thirteen families of files 41 to 44 (D4): each decodes
to the instruction it stands for, and a byte of each unmapped group is refused. -/
def Obligations.SpelledOutWordsDecode : Prop :=
  decode [0xA9, 0x05] = .instr (.ldaImm 0x05) [] ∧
  decode [0xB6, 0xFF] = .instr (.ldxZpY 0xFF) [] ∧
  decode [0x91, 0x20] = .instr (.staIndY 0x20) [] ∧
  decode [0xAA] = .instr .tax [] ∧
  decode [0x09, 0x80] = .instr (.oraImm 0x80) [] ∧
  decode [0x35, 0x10] = .instr (.andZpX 0x10) [] ∧
  decode [0x1E, 0x00, 0x02] = .instr (.aslAbsX 0x0200) [] ∧
  decode [0x69, 0x05, 0xEA] = .instr (.adcImm 0x05) [0xEA] ∧
  decode [0xC1, 0x20] = .instr (.cmpIndX 0x20) [] ∧
  decode [0xFE, 0x00, 0x02] = .instr (.incAbsX 0x0200) [] ∧
  decode [0xE8] = .instr .inx [] ∧
  decode [0x4C, 0x00, 0x06] = .instr (.jmpAbs 0x0600) [] ∧
  decode [0x6C, 0xFF, 0x02] = .instr (.jmpInd 0x02FF) [] ∧
  decode [0xD0, 0xFA] = .instr (.bne 0xFA) [] ∧
  decode [0xEA] = .instr .nop [] ∧
  decode [0x00] = .instr .brk [] ∧
  decode [0x02] = .unmapped 0x02 none ∧
  decode [0xE9, 0x01] = .unmapped 0xE9 (some "SBC")

/-! ## The step, fetching and addressing modes -/

/-- R91, R15 (D7: the wrap of PC; D15: no advance where the read raises): `fetch8` reads the byte at PC, which at the trap
address is a draw like any other read (R45), and then advances PC by one mod 2^16; a read that raises ends it with PC where
it was. -/
def Obligations.FetchEightReadsThenAdvancesPc : Prop :=
  ∀ (pc0 : Word) (s : State),
    (∀ b t, memRead pc0 s.pc s = .done b t → ∃ next : Word, next.toNat = (s.pc.toNat + 1) % 65536 ∧
      fetch8 pc0 s = .done b { t with pc := next }) ∧
    (∀ t, memRead pc0 s.pc s = .raised t → fetch8 pc0 s = .raised t ∧ t.pc = s.pc)

/-- R92: `fetch16` is two fetches in order, the byte at the lower address being the low byte; a fetch that raises ends it. -/
def Obligations.FetchSixteenIsLittleEndian : Prop :=
  ∀ (pc0 : Word) (s : State),
    (∀ lo hi t u, fetch8 pc0 s = .done lo t → fetch8 pc0 t = .done hi u →
      ∃ w, fetch16 pc0 s = .done w u ∧ w.toNat = hi.toNat * 256 + lo.toNat) ∧
    (∀ t, fetch8 pc0 s = .raised t → fetch16 pc0 s = .raised t) ∧
    (∀ lo t u, fetch8 pc0 s = .done lo t → fetch8 pc0 t = .raised u → fetch16 pc0 s = .raised u)

/-- R97, R98, R99: an opcode of mode ZP, ZPX or ZPY fetches one operand byte, and resolves to the page-zero address of the
byte, of the byte plus X mod 256, or of the byte plus Y mod 256, with no memory access; ZPY belongs to LDX and STX only. -/
def Obligations.ZeroPageModesStayInPageZero : Prop :=
  (∀ (op : Byte) (e : Entry), table op = some e →
    (e.pair.2 = .zp → ∀ pc0 s b t, fetch8 pc0 s = .done b t →
      ∃ i, fetchOperand pc0 e s = .done i t ∧ memFormOf i = some (.zp b)) ∧
    (e.pair.2 = .zpX → ∀ pc0 s b t, fetch8 pc0 s = .done b t →
      ∃ i, fetchOperand pc0 e s = .done i t ∧ memFormOf i = some (.zpX b)) ∧
    (e.pair.2 = .zpY → (e.pair.1 = .ldx ∨ e.pair.1 = .stx) ∧ ∀ pc0 s b t, fetch8 pc0 s = .done b t →
      ∃ i, fetchOperand pc0 e s = .done i t ∧ memFormOf i = some (.zpY b))) ∧
  ∀ (pc0 : Word) (b : Byte) (s : State),
    (∃ ea, resolve pc0 (.zp b) s = .done ea s ∧ ea.toNat = b.toNat) ∧
    (∃ ea, resolve pc0 (.zpX b) s = .done ea s ∧ ea.toNat = (b.toNat + s.x.toNat) % 256) ∧
    (∃ ea, resolve pc0 (.zpY b) s = .done ea s ∧ ea.toNat = (b.toNat + s.y.toNat) % 256)

/-- R100: an opcode of mode ABS fetches two bytes, little-endian, and resolves to that address: the cell of a data
instruction, the target of JMP. -/
def Obligations.AbsoluteModeIsTheOperandWord : Prop :=
  (∀ (op : Byte) (e : Entry), table op = some e → e.pair.2 = .abs →
    ∀ pc0 s w t, fetch16 pc0 s = .done w t →
      ∃ i, fetchOperand pc0 e s = .done i t ∧ (memFormOf i = some (.abs w) ∨ i = .jmpAbs w)) ∧
  ∀ (pc0 w : Word) (s : State), resolve pc0 (.abs w) s = .done w s

/-- R101, R102 (the 16-bit wrap is the spec's choice D8): the operand word plus the index, mod 2^16, with no access. -/
def Obligations.IndexedAbsoluteWrapsToSixteenBits : Prop :=
  ∀ (pc0 w : Word) (s : State),
    (∃ ea, resolve pc0 (.absX w) s = .done ea s ∧ ea.toNat = (w.toNat + s.x.toNat) % 65536) ∧
    (∃ ea, resolve pc0 (.absY w) s = .done ea s ∧ ea.toNat = (w.toNat + s.y.toNat) % 65536)

/-- R104 (the page-zero wrap of the pointer is the spec's choice D9): INDX reads its pointer at `(b + X) mod 256` and the
byte after it in page zero, low byte first, and adds nothing; the first pointer byte out of bounds raises. -/
def Obligations.IndexedIndirectReadsPageZeroPointer : Prop :=
  ∀ (pc0 : Word) (b : Byte) (s : State),
    let p := (b.toNat + s.x.toNat) % 256
    let lo := BitVec.ofNat 16 p
    let hi := BitVec.ofNat 16 ((p + 1) % 256)
    (s.validAddr lo → s.validAddr hi → ∃ ea,
      resolve pc0 (.indX b) s = .done ea ((s.afterRead lo).afterRead hi) ∧
      ea.toNat = ((s.afterRead lo).peek hi).toNat * 256 + (s.peek lo).toNat) ∧
    (¬ s.validAddr lo → resolve pc0 (.indX b) s = .raised (s.takeFault (.outOfBounds lo pc0))) ∧
    (s.validAddr lo → ¬ s.validAddr hi →
      resolve pc0 (.indX b) s = .raised ((s.afterRead lo).takeFault (.outOfBounds hi pc0)))

/-- R105 (D9): INDY reads its pointer at the operand byte and the byte after it in page zero, low byte first, and adds Y to
the word mod 2^16. -/
def Obligations.IndirectIndexedAddsYToPointer : Prop :=
  ∀ (pc0 : Word) (b : Byte) (s : State),
    let lo := BitVec.ofNat 16 b.toNat
    let hi := BitVec.ofNat 16 ((b.toNat + 1) % 256)
    (s.validAddr lo → s.validAddr hi → ∃ ea,
      resolve pc0 (.indY b) s = .done ea ((s.afterRead lo).afterRead hi) ∧
      ea.toNat = (((s.afterRead lo).peek hi).toNat * 256 + (s.peek lo).toNat + s.y.toNat) % 65536) ∧
    (¬ s.validAddr lo → resolve pc0 (.indY b) s = .raised (s.takeFault (.outOfBounds lo pc0))) ∧
    (s.validAddr lo → ¬ s.validAddr hi →
      resolve pc0 (.indY b) s = .raised ((s.afterRead lo).takeFault (.outOfBounds hi pc0)))

/-- R90, R45, R63, R111: a step of a running engine whose bytes at PC, none at the trap address and all in bounds, are an
instruction's encoding is that instruction's meaning, in the state with PC past its bytes. Every instruction is well formed,
so none is left out. And whatever the bytes fetched are, a draw at the trap address among them, an opcode byte with an entry
whose operand is fetched runs the instruction that entry and operand make. -/
def Obligations.StepRunsTheInstructionAtPc : Prop :=
  (∀ (s : State) (i : Instr), s.running = true →
    (∀ k, (h : k < (encode i).length) →
      s.validAddr (s.pc + BitVec.ofNat 16 k) ∧ s.pc + BitVec.ofNat 16 k ≠ 0x00FE ∧
      s.mem.read (s.pc + BitVec.ofNat 16 k).toNat = (encode i)[k]) →
    i.wellFormed = true ∧ step s = exec i { s with pc := s.pc + BitVec.ofNat 16 i.length }) ∧
  ∀ (s t u : State) (op : Byte) (e : Entry) (i : Instr), s.running = true → fetch8 s.pc s = .done op t →
    table op = some e → fetchOperand s.pc e t = .done i u → step s = exec i u

/-- R220: with RUNNING false a step changes nothing; a memory read by an observer answers as before. -/
def Obligations.HaltedEngineIsQuiescent : Prop :=
  ∀ (s : State), s.running = false →
    step s = .next s ∧ ∀ t a drawn, step s = .next t → observe t a drawn = observe s a drawn

/-- R193, R225: every step answers a next state, a fault included (log 5): no step stops the model. -/
def Obligations.EveryStepAnswersNext : Prop :=
  (∀ (i : Instr) (s : State), ∃ t, exec i s = .next t) ∧ ∀ (s : State), ∃ t, step s = .next t

/-! ## Load, store, transfer -/

/-- R120 (its pseudocode, flags and exceptions; the encodings are D4): LDA. -/
def Obligations.LdaLoadsTheAccumulator : Prop :=
  (∀ (v : Byte) (s : State), exec (.ldaImm v) s = .next (withZN v { s with a := v })) ∧
  ∀ (i : Instr), i.mnemonic = .lda → (∃ v, i = .ldaImm v) ∨ ((memFormOf i).isSome = true ∧ ReadsCell i fun v t => withZN v { t with a := v })

/-- R121 (its pseudocode, flags and exceptions; the encodings are D4): LDX. -/
def Obligations.LdxLoadsIndexX : Prop :=
  (∀ (v : Byte) (s : State), exec (.ldxImm v) s = .next (withZN v { s with x := v })) ∧
  ∀ (i : Instr), i.mnemonic = .ldx → (∃ v, i = .ldxImm v) ∨ ((memFormOf i).isSome = true ∧ ReadsCell i fun v t => withZN v { t with x := v })

/-- R122, R123 (their pseudocode, flags and exceptions; the encodings are D4): STA and STX store their register, read no
cell and write no flag. -/
def Obligations.StaAndStxStoreTheirRegister : Prop :=
  (∀ (i : Instr), i.mnemonic = .sta → (memFormOf i).isSome = true ∧ StoresCell i State.a) ∧
  ∀ (i : Instr), i.mnemonic = .stx → (memFormOf i).isSome = true ∧ StoresCell i State.x

/-- R124 to R127 (their pseudocode and flags; the encodings are D4): the four transfers. -/
def Obligations.TransfersCopyAndSetZN : Prop :=
  ∀ (s : State),
    exec .tax s = .next (withZN s.a { s with x := s.a }) ∧
    exec .txa s = .next (withZN s.x { s with a := s.x }) ∧
    exec .tay s = .next (withZN s.a { s with y := s.a }) ∧
    exec .tya s = .next (withZN s.y { s with a := s.y })

/-! ## Logic, shift, arithmetic -/

/-- R140, R141 (their pseudocode, flags and exceptions; the encodings are D4): ORA and AND, bit by bit. -/
def Obligations.OraAndAndCombineBitwise : Prop :=
  (∀ (v : Byte) (s : State),
    exec (.oraImm v) s = .next (withZN (s.a ||| v) { s with a := s.a ||| v }) ∧
    exec (.andImm v) s = .next (withZN (s.a &&& v) { s with a := s.a &&& v })) ∧
  (∀ (i : Instr), i.mnemonic = .ora → (∃ v, i = .oraImm v) ∨ ((memFormOf i).isSome = true ∧
    ReadsCell i fun v t => withZN (t.a ||| v) { t with a := t.a ||| v })) ∧
  ∀ (i : Instr), i.mnemonic = .and → (∃ v, i = .andImm v) ∨ ((memFormOf i).isSome = true ∧
    ReadsCell i fun v t => withZN (t.a &&& v) { t with a := t.a &&& v })

/-- R142 (D13: the value shifted, in all five modes; the encodings are D4): ASL doubles A or its cell, mod 256, C being the
old bit 7; a memory form writes the result back and leaves A alone. -/
def Obligations.AslDoublesItsOperand : Prop :=
  let twice : Byte → Byte := fun v => BitVec.ofNat 8 (v.toNat * 2)
  (∀ (s : State), exec .aslAcc s =
    .next (withZN (twice s.a) { s with a := twice s.a, carry := decide (128 ≤ s.a.toNat) })) ∧
  ∀ (i : Instr), i.mnemonic = .asl → i = .aslAcc ∨ ((memFormOf i).isSome = true ∧
    ModifiesCell i twice fun v t => withZN (twice v) { t with carry := decide (128 ≤ v.toNat) })

/-- R150, R151 (D11: the corrected, binary semantics; the encodings are D4): ADC adds its operand and the carry to A, mod
256, with the carry out; V is `overflow(a, m, r)` (R152), stated by its own statement. The D flag plays no part. -/
def Obligations.AdcAddsWithCarry : Prop :=
  let sum : Byte → State → Nat := fun m s => s.a.toNat + m.toNat + s.carry.toNat
  let body : Byte → State → State := fun m s =>
    let r : Byte := BitVec.ofNat 8 (sum m s)
    withZN r { s with a := r, carry := decide (255 < sum m s), overflow := overflowOf s.a m r }
  (∀ (v : Byte) (s : State), exec (.adcImm v) s = .next (body v s)) ∧
  ∀ (i : Instr), i.mnemonic = .adc → (∃ v, i = .adcImm v) ∨ ((memFormOf i).isSome = true ∧ ReadsCell i body)

/-- R152 (the formula is general knowledge, G2): the overflow of an addition with carry-in is 1 iff the signed sum lies
outside -128..127. -/
def Obligations.OverflowIsSignedSumOutOfRange : Prop :=
  ∀ (a m : Byte) (c : Bool),
    let sum : Int := signed a + signed m + (if c then 1 else 0)
    overflowOf a m (BitVec.ofNat 8 (a.toNat + m.toNat + c.toNat)) = true ↔ (sum < -128 ∨ 127 < sum)

/-- R153 (D12; the encodings are D4): CMP sets C to the unsigned `A >= m` and Z, N from the difference mod 256; it writes
no register. -/
def Obligations.CmpComparesWithoutWriting : Prop :=
  let body : Byte → State → State := fun m s =>
    withZN (BitVec.ofNat 8 (s.a.toNat + 256 - m.toNat)) { s with carry := decide (m.toNat ≤ s.a.toNat) }
  (∀ (v : Byte) (s : State), exec (.cmpImm v) s = .next (body v s)) ∧
  ∀ (i : Instr), i.mnemonic = .cmp → (∃ v, i = .cmpImm v) ∨ ((memFormOf i).isSome = true ∧ ReadsCell i body)

/-- R154, R155 (their pseudocode, flags and exceptions; the encodings are D4): INC and DEC add or subtract one in their
cell, mod 256, and set Z and N from the new cell value. -/
def Obligations.IncAndDecChangeTheirCellByOne : Prop :=
  let up : Byte → Byte := fun v => BitVec.ofNat 8 (v.toNat + 1)
  let down : Byte → Byte := fun v => BitVec.ofNat 8 (v.toNat + 255)
  (∀ (i : Instr), i.mnemonic = .inc → (memFormOf i).isSome = true ∧ ModifiesCell i up fun v t => withZN (up v) t) ∧
  ∀ (i : Instr), i.mnemonic = .dec → (memFormOf i).isSome = true ∧ ModifiesCell i down fun v t => withZN (down v) t

/-- R156, R157 (their pseudocode and flags; the encodings are D4): INX and INY. -/
def Obligations.InxAndInyWrap : Prop :=
  ∀ (s : State),
    let x' : Byte := BitVec.ofNat 8 ((s.x.toNat + 1) % 256)
    let y' : Byte := BitVec.ofNat 8 ((s.y.toNat + 1) % 256)
    exec .inx s = .next (withZN x' { s with x := x' }) ∧ exec .iny s = .next (withZN y' { s with y := y' })

/-! ## Control transfer -/

/-- R170, R103 (D10: the following byte is `p + 1` with its carry; the encodings are D4): JMP ABS sets PC to its operand;
JMP IND sets PC to the little-endian word at its pointer and the following byte, a pointer byte out of bounds raising;
nothing is read at the target. -/
def Obligations.JmpSetsPcToItsTarget : Prop :=
  (∀ (w : Word) (s : State), exec (.jmpAbs w) s = .next { s with pc := w }) ∧
  ∀ (p : Word) (s : State),
    let q := BitVec.ofNat 16 (p.toNat + 1)
    (s.validAddr p → s.validAddr q → ∃ target : Word,
      target.toNat = ((s.afterRead p).peek q).toNat * 256 + (s.peek p).toNat ∧
      exec (.jmpInd p) s = .next { (s.afterRead p).afterRead q with pc := target }) ∧
    (¬ s.validAddr p → exec (.jmpInd p) s = .next (s.takeFault (.outOfBounds p (s.pc - 3)))) ∧
    (s.validAddr p → ¬ s.validAddr q →
      exec (.jmpInd p) s = .next ((s.afterRead p).takeFault (.outOfBounds q (s.pc - 3))))

/-- R172, R173, R174, R106 (D7: the sum wraps; the encodings are D4): a taken branch adds the signed displacement to PC,
already past the offset byte, mod 2^16; an untaken one changes nothing; BEQ is taken when Z is set, BNE when it is clear. -/
def Obligations.BranchesAddSignedDisplacement : Prop :=
  ∀ (d : Byte) (s : State), ∃ target : Word,
    (target.toNat : Int) = ((s.pc.toNat : Int) + signed d) % 65536 ∧
    exec (.beq d) s = .next (if s.zero then { s with pc := target } else s) ∧
    exec (.bne d) s = .next (if s.zero then s else { s with pc := target })

/-- R175 (the encoding is D4): NOP has no effect of its own. -/
def Obligations.NopChangesNothing : Prop := ∀ (s : State), exec .nop s = .next s

/-- R176 (PC after BRK is the spec's choice D25; the encoding is D4): BRK sets B, clears RUNNING and changes nothing else;
FAULT is not written. -/
def Obligations.BrkHaltsAndSetsB : Prop :=
  ∀ (s : State), exec .brk s = .next { s with breakFlag := true, running := false }

/-! ## Faults and halting -/

/-- R212, R214, R215: an opcode byte with an empty entry ends the step in `InvalidOpcode` with the byte and the address it was
fetched at, after the opcode fetch alone: PC is `pc0 + 1` and no operand byte is read; the engine halts and does not retry.
The latch the fault is written to is the spec's choice D20, where PC stands D15; the draw counter, which moves where the byte
was a draw, is the model's own (log 4). -/
def Obligations.UnmappedOpcodeFaultsAfterItsByte : Prop :=
  ∀ (s t : State) (op : Byte), s.running = true → fetch8 s.pc s = .done op t → table op = none →
    step s = .next { t with fault := some (.invalidOpcode op s.pc), running := false } ∧
    t.pc = s.pc + 1 ∧ t = { s with pc := t.pc, draws := t.draws } ∧
    ∀ u v, step s = .next u → step u = .next v → v = u

/-- R215, R211, R91 (D15: where PC stands and which PC is recorded): the three fetch faults of a running engine, each with PC
at the byte that could not be fetched and `pc0` recorded. -/
def Obligations.FetchFaultsLeavePcAtTheMissingByte : Prop :=
  ∀ (s : State), s.running = true →
    (¬ s.validAddr s.pc → step s = .next (s.takeFault (.outOfBounds s.pc s.pc))) ∧
    ∀ op e, s.validAddr s.pc → s.peek s.pc = op → table op = some e →
      (1 ≤ e.operandBytes → ¬ s.validAddr (s.pc + 1) →
        step s = .next { (s.afterRead s.pc).takeFault (.outOfBounds (s.pc + 1) s.pc) with pc := s.pc + 1 }) ∧
      (e.operandBytes = 2 → s.validAddr (s.pc + 1) → ¬ s.validAddr (s.pc + 2) →
        step s = .next { ((s.afterRead s.pc).afterRead (s.pc + 1)).takeFault (.outOfBounds (s.pc + 2) s.pc) with
          pc := s.pc + 2 })

/-- R214, R215, R211, R212 (D15, D20; the draw counter is the model's, log 4): a step that raises a fault changes nothing but
PC, RUNNING and FAULT: registers, flags and memory are those of before; the fault records `pc0` and, for `OutOfBounds`, an
address that has no cell. -/
def Obligations.FaultsChangeOnlyPcRunningAndLatch : Prop :=
  ∀ (s t : State), s.running = true → s.fault = none → step s = .next t → t.fault ≠ none →
    t = { s with pc := t.pc, draws := t.draws, running := false, fault := t.fault } ∧
    ((∃ a, t.fault = some (.outOfBounds a s.pc) ∧ ¬ s.validAddr a) ∨
     (∃ op, t.fault = some (.invalidOpcode op s.pc) ∧ table op = none ∧ t.pc = s.pc + 1))

/-- R216: a faulted state has not ended well, and from it, RUNNING being false, no schedule of steps, stop requests and
observer reads changes anything: FAULT keeps its first value for ever. -/
def Obligations.FaultedStateIsFinal : Prop :=
  ∀ (s t : State) (ms : List Move), s.Inv → s.fault ≠ none → runMoves s ms = .next t →
    s.endedWell = false ∧ s.running = false ∧ t = s

/-- R196, R248 (D22: a stop request lands between two steps): after `request_stop` every later step is a no-op, and neither
B, FAULT nor anything but RUNNING has changed. -/
def Obligations.StopRequestHaltsForGood : Prop :=
  ∀ (s t : State) (ms : List Move), runMoves s (.requestStop :: ms) = .next t → t = { s with running := false }

/-- R219, R20: RUNNING goes from true to false in exactly four ways: a step that executes BRK, a step that raises
`OutOfBounds`, a step that raises `InvalidOpcode`, and a stop request (a move between two steps, D22); each of them does stop the engine. R20,
R197 (the spec's choice D16, log 14): no move sets it true again. Which fault was raised is read from the latch (R21, D20). -/
def Obligations.EngineStopsInExactlyFourWays : Prop :=
  ∀ (s t : State) (mv : Move), s.fault = none → mv.apply s = .next t →
    (s.running = true → (t.running = false ↔
      (mv = .step ∧ ∃ u, fetchInstr s = .done .brk u) ∨
      (mv = .step ∧ ∃ a pc, t.fault = some (.outOfBounds a pc)) ∨
      (mv = .step ∧ ∃ op pc, t.fault = some (.invalidOpcode op pc)) ∨
      mv = .requestStop)) ∧
    (s.running = false → t.running = false)

/-! ## Frames over all instructions -/

/-- R17, R16: an instruction leaves every flag it does not list untouched: C is written by ADC, ASL and CMP only, Z and N
together by the instructions R16 names, V by ADC only, B by BRK only, I and D by none. -/
def Obligations.UnlistedFlagsAreUntouched : Prop :=
  ∀ (i : Instr) (s t : State), exec i s = .next t →
    (i.mnemonic ∉ [Mnemonic.adc, .asl, .cmp] → t.carry = s.carry) ∧
    (i.mnemonic ∈ [Mnemonic.sta, .stx, .jmp, .beq, .bne, .nop, .brk] → t.zero = s.zero ∧ t.negative = s.negative) ∧
    (i.mnemonic ≠ .adc → t.overflow = s.overflow) ∧
    (i.mnemonic ≠ .brk → t.breakFlag = s.breakFlag) ∧
    t.interruptDisable = s.interruptDisable ∧ t.decimalMode = s.decimalMode

/-- R10, R12, R13: the columns of the register table: which instructions write A, X and Y; nothing writes SP, nor the size of
the memory. -/
def Obligations.UnlistedRegistersAreUntouched : Prop :=
  ∀ (i : Instr) (s t : State), exec i s = .next t →
    (i.mnemonic ∉ [Mnemonic.lda, .txa, .tya, .ora, .and, .adc] → i ≠ .aslAcc → t.a = s.a) ∧
    (i.mnemonic ∉ [Mnemonic.ldx, .tax, .inx] → t.x = s.x) ∧
    (i.mnemonic ∉ [Mnemonic.tay, .iny] → t.y = s.y) ∧
    t.sp = s.sp ∧ t.memSize = s.memSize

/-- R111, R215: every instruction but JMP, BEQ and BNE leaves PC where resolution left it, past the instruction, also where
it faults; and JMP leaves it there where it faults. -/
def Obligations.OnlyControlTransfersMovePc : Prop :=
  ∀ (i : Instr) (s t : State), exec i s = .next t →
    (i.mnemonic ∉ [Mnemonic.jmp, .beq, .bne] → t.pc = s.pc) ∧
    (i.mnemonic = .jmp → t.fault ≠ s.fault → t.pc = s.pc)

/-- R49, R122, R123, R142, R154, R155: an instruction that stores nothing leaves every byte of memory as it was; one that
stores leaves every byte but the one at the address its operand resolves to, and a store out of bounds leaves them all. -/
def Obligations.OtherBytesOfMemoryAreUntouched : Prop :=
  ∀ (i : Instr) (s t : State), exec i s = .next t →
    (i.mnemonic ∉ storing ∨ i = .aslAcc → ∀ b, t.mem.read b = s.mem.read b) ∧
    ∀ m, memFormOf i = some m →
      (∀ ea u, resolve (start i s) m s = .done ea u → ∀ b, b ≠ ea.toNat → t.mem.read b = s.mem.read b) ∧
      (∀ ea u, resolve (start i s) m s = .done ea u → ¬ s.validAddr ea → ∀ b, t.mem.read b = s.mem.read b) ∧
      (∀ u, resolve (start i s) m s = .raised u → ∀ b, t.mem.read b = s.mem.read b)

/-- R20, R21, R214: an instruction leaves RUNNING and FAULT as they were, except BRK, which clears RUNNING, and one that
raises `OutOfBounds`, which records it with its own start address and clears RUNNING. -/
def Obligations.OnlyBrkAndFaultsTouchControlState : Prop :=
  ∀ (i : Instr) (s t : State), exec i s = .next t →
    (t.fault = s.fault ∧ (i ≠ .brk → t.running = s.running)) ∨
    (∃ a, ¬ s.validAddr a ∧ t.fault = some (.outOfBounds a (start i s)) ∧ t.running = false)

/-- R41, R211, R225: with every cell it touches in memory, an instruction completes: it answers a next state with FAULT as it
was and, but for BRK, RUNNING as it was. -/
def Obligations.ReachableInstructionsComplete : Prop :=
  ∀ (i : Instr) (s : State),
    (∀ m, memFormOf i = some m → reachable m s = true) →
    (∀ w, i = .jmpInd w → s.validAddr w ∧ s.validAddr (w + 1)) →
    ∃ t, exec i s = .next t ∧ t.fault = s.fault ∧ (i ≠ .brk → t.running = s.running)

/-! ## The whole machine -/

/-- Every move of every agent keeps the invariant: canonical memory inside its size, an allowed size, SP, I and D at their
reset values (R12, R19, D23), a latched fault or a set B only on a halted engine and never both (R176, R214, R216, R221). -/
def Obligations.EveryMoveKeepsTheInvariant : Prop :=
  ∀ (s t : State) (mv : Move), s.Inv → mv.apply s = .next t → t.Inv

/-- R221 (D26, resting on D1's B = 0): after any boot and any schedule, the run is going on, or it has ended in exactly one of
the three ways, and it ended well only if B was set and no fault was latched. -/
def Obligations.EveryRunEndsInExactlyOneWay : Prop :=
  ∀ (size : Nat) (entry : Word) (draws : Nat) (ops : List LoaderOp) (ms : List Move) (t : State),
    memSizeAllowed size = true → runMoves (boot size entry draws ops) ms = .next t →
    ([t.running, t.endedWell, t.cutShort, t.faulted].filter id).length = 1 ∧
    (t.breakFlag = true ↔ t.endedWell = true) ∧ (t.fault ≠ none ↔ t.faulted = true)

/-- R12, R19, R151 (D11, D23): SP, I and D influence nothing: a step from a state with other values in them is the same step,
with those values carried through. -/
def Obligations.InertRegistersInfluenceNothing : Prop :=
  ∀ (s : State) (p : Byte) (i d : Bool),
    step { s with sp := p, interruptDisable := i, decimalMode := d } =
      match step s with
      | .next t => .next { t with sp := p, interruptDisable := i, decimalMode := d }
      | .fault f => .fault f
      | .refused r => .refused r

/-- R26: the cell at 0xFE is written like any cell but no read ever returns it: neither a step nor an observer can tell two
states apart that differ in it alone; after a step they still differ in it alone, if at all. -/
def Obligations.TheCellUnderTheTrapIsNeverRead : Prop :=
  (∀ (pc0 : Word) (v : Byte) (s : State), s.mem.wf → s.validAddr 0x00FE →
    ∃ t, memWrite pc0 0x00FE v s = .done () t ∧ t.mem.read 0xFE = v) ∧
  ∀ (s t : State) (v : Byte), s.mem.wf → step s = .next t →
    (∃ w, step { s with mem := s.mem.write 0xFE v } = .next { t with mem := t.mem.write 0xFE w }) ∧
    ∀ a drawn, observe { s with mem := s.mem.write 0xFE v } a drawn = observe s a drawn

/-- R25, R48, R49, R44, R225: the accesses listed for a step account for all it does to memory: replaying its writes gives the
memory it leaves, it takes one draw for each read of the trap address, every access is in bounds, there are at most five, and
the only write, if there is one, comes last. Which accesses there are is the spec's choice D14 (log 23); the list itself
(log 21) and the draw counter (log 4) are the model's. -/
def Obligations.AccessListAccountsForTheStep : Prop :=
  ∀ (s t : State), step s = .next t →
    t.mem = replay s.mem (stepAccesses s) ∧
    t.draws = s.draws + (stepAccesses s).count (.read 0x00FE) ∧
    (∀ acc ∈ stepAccesses s, s.validAddr (addressOf acc)) ∧
    (stepAccesses s).length ≤ 5 ∧
    ∀ acc ∈ (stepAccesses s).dropLast, isWrite acc = false
end

