-- ==== Sys2Proof/Laws/Memory.lean ====
section
/-! SUPPORT. The memory array: a read after a write, the canonical form, and equal reads of canonical memories making
equal memories. -/

namespace Sys2Proof.Machine

namespace Memory

@[simp] theorem read_nil (a : Nat) : read [] a = blank := rfl

theorem read_cons (k : Nat) (v : Byte) (rest : Memory) (a : Nat) :
    read ((k, v) :: rest) a = if a = k then v else read rest a := rfl

/-- An address below every listed one is unlisted. -/
theorem read_of_lt_all {m : Memory} {a : Nat} (h : ∀ c ∈ m, a < c.1) : read m a = blank := by
  induction m with
  | nil => rfl
  | cons c rest ih =>
    obtain ⟨k, v⟩ := c
    have hk : a < k := h (k, v) (by simp)
    rw [read_cons, if_neg (by omega)]
    exact ih fun c hc => h c (by simp [hc])

/-- The cells of a write are old cells or the one written. -/
theorem mem_write {m : Memory} {a : Nat} {v : Byte} {c : Host.Cell} (h : c ∈ write m a v) :
    c ∈ m ∨ (c = (a, v) ∧ v ≠ blank) := by
  induction m with
  | nil =>
    simp only [write] at h
    split at h <;> simp_all
  | cons d rest ih =>
    obtain ⟨k, w⟩ := d
    simp only [write] at h
    split at h
    · split at h
      · exact .inl h
      · simp only [List.mem_cons] at h ⊢
        rcases h with h | h
        · exact .inr ⟨h, ‹_›⟩
        · exact .inl h
    · split at h
      · split at h
        · exact .inl (by simp [h])
        · simp only [List.mem_cons] at h ⊢
          rcases h with h | h
          · exact .inr ⟨h, ‹_›⟩
          · exact .inl (.inr h)
      · simp only [List.mem_cons] at h ⊢
        rcases h with h | h
        · exact .inl (.inl h)
        · rcases ih h with h | h
          · exact .inl (.inr h)
          · exact .inr h

/-- The canonical form of a longer memory: its head is below its tail and not blank. -/
theorem wf_cons {k : Nat} {w : Byte} {rest : Memory} :
    wf ((k, w) :: rest) ↔ (∀ c ∈ rest, k < c.1) ∧ w ≠ blank ∧ wf rest := by
  simp only [wf, List.pairwise_cons, List.mem_cons, forall_eq_or_imp]
  tauto

@[simp] theorem wf_nil : wf [] := by simp [wf]

/-- A write keeps the canonical form. -/
theorem write_wf {m : Memory} (h : m.wf) (a : Nat) (v : Byte) : (write m a v).wf := by
  induction m with
  | nil =>
    simp only [write]
    split
    · exact wf_nil
    · exact wf_cons.2 ⟨by simp, ‹_›, wf_nil⟩
  | cons d rest ih =>
    obtain ⟨k, w⟩ := d
    obtain ⟨hlt, hw, hrest⟩ := wf_cons.1 h
    simp only [write]
    split
    · split
      · exact h
      · refine wf_cons.2 ⟨?_, ‹_›, h⟩
        intro c hc
        rcases List.mem_cons.1 hc with hc | hc
        · subst hc; assumption
        · have := hlt c hc; omega
    · split
      · split
        · exact hrest
        · subst a
          exact wf_cons.2 ⟨hlt, ‹_›, hrest⟩
      · refine wf_cons.2 ⟨?_, hw, ih hrest⟩
        intro c hc
        rcases mem_write hc with hc | ⟨hc, _⟩
        · exact hlt c hc
        · subst hc; simp only; omega

/-- A write inside a bound keeps every listed address inside it. -/
theorem write_inside {m : Memory} {n a : Nat} (h : ∀ c ∈ m, c.1 < n) (ha : a < n) (v : Byte) :
    ∀ c ∈ write m a v, c.1 < n := by
  intro c hc
  rcases mem_write hc with hc | ⟨hc, _⟩
  · exact h c hc
  · subst hc; exact ha

/-- What a canonical memory reads after a write: the byte written there, the old byte elsewhere. -/
theorem read_write {m : Memory} (h : m.wf) (a : Nat) (v : Byte) (b : Nat) :
    read (write m a v) b = if b = a then v else read m b := by
  induction m with
  | nil =>
    simp only [write]
    split
    · split
      · simp_all
      · rfl
    · simp [read_cons]
  | cons d rest ih =>
    obtain ⟨k, w⟩ := d
    obtain ⟨hlt, hw, hrest⟩ := wf_cons.1 h
    simp only [write]
    split
    · rename_i hak
      have hall : ∀ c ∈ (k, w) :: rest, a < c.1 := by
        intro c hc
        rcases List.mem_cons.1 hc with hc | hc
        · subst hc; exact hak
        · have := hlt c hc; omega
      split
      · split
        · subst b
          rw [read_of_lt_all hall]; simp_all
        · rfl
      · rw [read_cons]
    · split
      · subst a
        split
        · split
          · subst b
            rw [read_of_lt_all hlt]; simp_all
          · rw [read_cons, if_neg ‹_›]
        · rw [read_cons]
          split
          · rfl
          · rw [read_cons, if_neg ‹_›]
      · rw [read_cons, read_cons, ih hrest]
        split
        · subst b
          rw [if_neg (fun h => by omega)]
        · rfl

theorem read_write_same {m : Memory} (h : m.wf) (a : Nat) (v : Byte) : read (write m a v) a = v := by
  simp [read_write h]

/-- A write leaves every other address as it was, in any memory, canonical or not. -/
theorem read_write_ne (m : Memory) {a b : Nat} (v : Byte) (h : b ≠ a) : read (write m a v) b = read m b := by
  induction m with
  | nil => simp only [write]; split <;> simp [read, h]
  | cons d rest ih =>
    obtain ⟨k, w⟩ := d
    simp only [write]
    split
    · split
      · rfl
      · rw [read_cons, if_neg h]
    · split
      · subst a
        split
        · rw [read_cons, if_neg h]
        · rw [read_cons, read_cons, if_neg h, if_neg h]
      · rw [read_cons, read_cons, ih]

/-- Equal memories are equal data: canonical memories that read alike everywhere are the same list. -/
theorem ext_of_read {m n : Memory} (hm : m.wf) (hn : n.wf) (h : ∀ a, read m a = read n a) : m = n := by
  induction m generalizing n with
  | nil =>
    cases n with
    | nil => rfl
    | cons d rest =>
      obtain ⟨k, w⟩ := d
      have := h k
      rw [read_cons, if_pos rfl, read_nil] at this
      exact absurd this.symm (wf_cons.1 hn).2.1
  | cons c rest ih =>
    obtain ⟨k, v⟩ := c
    obtain ⟨hlt, hv, hrest⟩ := wf_cons.1 hm
    cases n with
    | nil =>
      have := h k
      rw [read_cons, if_pos rfl, read_nil] at this
      exact absurd this hv
    | cons d rest' =>
      obtain ⟨k', v'⟩ := d
      obtain ⟨hlt', hv', hrest'⟩ := wf_cons.1 hn
      have hk := h k
      have hk' := h k'
      rw [read_cons, if_pos rfl, read_cons] at hk
      rw [read_cons, read_cons, if_pos rfl] at hk'
      have hkk : k = k' := by
        by_contra hne
        rw [if_neg hne] at hk
        rw [if_neg (Ne.symm hne)] at hk'
        rcases Nat.lt_or_gt_of_ne hne with hl | hl
        · rw [read_of_lt_all (fun c hc => by have := hlt' c hc; omega)] at hk
          exact hv hk
        · rw [read_of_lt_all (fun c hc => by have := hlt c hc; omega)] at hk'
          exact hv' hk'.symm
      subst hkk
      rw [if_pos rfl] at hk
      subst hk
      congr 1
      refine ih hrest hrest' fun a => ?_
      have ha := h a
      rw [read_cons, read_cons] at ha
      split at ha
      · subst a
        rw [read_of_lt_all hlt, read_of_lt_all hlt']
      · exact ha

end Memory

end Sys2Proof.Machine
end

