-- ==== Sys2Proof/Laws/State.lean ====
section
/-! SUPPORT. One lemma for each field of `State` after each named update, each true by `rfl`. -/

namespace Sys2Proof.Machine

/-! `State.setA` -/

@[simp] theorem State.setA_a (s : State) (v : Byte) : (s.setA v).a = v := rfl
@[simp] theorem State.setA_x (s : State) (v : Byte) : (s.setA v).x = s.x := rfl
@[simp] theorem State.setA_y (s : State) (v : Byte) : (s.setA v).y = s.y := rfl
@[simp] theorem State.setA_sp (s : State) (v : Byte) : (s.setA v).sp = s.sp := rfl
@[simp] theorem State.setA_pc (s : State) (v : Byte) : (s.setA v).pc = s.pc := rfl
@[simp] theorem State.setA_carry (s : State) (v : Byte) : (s.setA v).carry = s.carry := rfl
@[simp] theorem State.setA_zero (s : State) (v : Byte) : (s.setA v).zero = s.zero := rfl
@[simp] theorem State.setA_interruptDisable (s : State) (v : Byte) : (s.setA v).interruptDisable = s.interruptDisable := rfl
@[simp] theorem State.setA_decimalMode (s : State) (v : Byte) : (s.setA v).decimalMode = s.decimalMode := rfl
@[simp] theorem State.setA_breakFlag (s : State) (v : Byte) : (s.setA v).breakFlag = s.breakFlag := rfl
@[simp] theorem State.setA_overflow (s : State) (v : Byte) : (s.setA v).overflow = s.overflow := rfl
@[simp] theorem State.setA_negative (s : State) (v : Byte) : (s.setA v).negative = s.negative := rfl
@[simp] theorem State.setA_running (s : State) (v : Byte) : (s.setA v).running = s.running := rfl
@[simp] theorem State.setA_fault (s : State) (v : Byte) : (s.setA v).fault = s.fault := rfl
@[simp] theorem State.setA_mem (s : State) (v : Byte) : (s.setA v).mem = s.mem := rfl
@[simp] theorem State.setA_memSize (s : State) (v : Byte) : (s.setA v).memSize = s.memSize := rfl
@[simp] theorem State.setA_draws (s : State) (v : Byte) : (s.setA v).draws = s.draws := rfl

/-! `State.setX` -/

@[simp] theorem State.setX_a (s : State) (v : Byte) : (s.setX v).a = s.a := rfl
@[simp] theorem State.setX_x (s : State) (v : Byte) : (s.setX v).x = v := rfl
@[simp] theorem State.setX_y (s : State) (v : Byte) : (s.setX v).y = s.y := rfl
@[simp] theorem State.setX_sp (s : State) (v : Byte) : (s.setX v).sp = s.sp := rfl
@[simp] theorem State.setX_pc (s : State) (v : Byte) : (s.setX v).pc = s.pc := rfl
@[simp] theorem State.setX_carry (s : State) (v : Byte) : (s.setX v).carry = s.carry := rfl
@[simp] theorem State.setX_zero (s : State) (v : Byte) : (s.setX v).zero = s.zero := rfl
@[simp] theorem State.setX_interruptDisable (s : State) (v : Byte) : (s.setX v).interruptDisable = s.interruptDisable := rfl
@[simp] theorem State.setX_decimalMode (s : State) (v : Byte) : (s.setX v).decimalMode = s.decimalMode := rfl
@[simp] theorem State.setX_breakFlag (s : State) (v : Byte) : (s.setX v).breakFlag = s.breakFlag := rfl
@[simp] theorem State.setX_overflow (s : State) (v : Byte) : (s.setX v).overflow = s.overflow := rfl
@[simp] theorem State.setX_negative (s : State) (v : Byte) : (s.setX v).negative = s.negative := rfl
@[simp] theorem State.setX_running (s : State) (v : Byte) : (s.setX v).running = s.running := rfl
@[simp] theorem State.setX_fault (s : State) (v : Byte) : (s.setX v).fault = s.fault := rfl
@[simp] theorem State.setX_mem (s : State) (v : Byte) : (s.setX v).mem = s.mem := rfl
@[simp] theorem State.setX_memSize (s : State) (v : Byte) : (s.setX v).memSize = s.memSize := rfl
@[simp] theorem State.setX_draws (s : State) (v : Byte) : (s.setX v).draws = s.draws := rfl

/-! `State.setY` -/

@[simp] theorem State.setY_a (s : State) (v : Byte) : (s.setY v).a = s.a := rfl
@[simp] theorem State.setY_x (s : State) (v : Byte) : (s.setY v).x = s.x := rfl
@[simp] theorem State.setY_y (s : State) (v : Byte) : (s.setY v).y = v := rfl
@[simp] theorem State.setY_sp (s : State) (v : Byte) : (s.setY v).sp = s.sp := rfl
@[simp] theorem State.setY_pc (s : State) (v : Byte) : (s.setY v).pc = s.pc := rfl
@[simp] theorem State.setY_carry (s : State) (v : Byte) : (s.setY v).carry = s.carry := rfl
@[simp] theorem State.setY_zero (s : State) (v : Byte) : (s.setY v).zero = s.zero := rfl
@[simp] theorem State.setY_interruptDisable (s : State) (v : Byte) : (s.setY v).interruptDisable = s.interruptDisable := rfl
@[simp] theorem State.setY_decimalMode (s : State) (v : Byte) : (s.setY v).decimalMode = s.decimalMode := rfl
@[simp] theorem State.setY_breakFlag (s : State) (v : Byte) : (s.setY v).breakFlag = s.breakFlag := rfl
@[simp] theorem State.setY_overflow (s : State) (v : Byte) : (s.setY v).overflow = s.overflow := rfl
@[simp] theorem State.setY_negative (s : State) (v : Byte) : (s.setY v).negative = s.negative := rfl
@[simp] theorem State.setY_running (s : State) (v : Byte) : (s.setY v).running = s.running := rfl
@[simp] theorem State.setY_fault (s : State) (v : Byte) : (s.setY v).fault = s.fault := rfl
@[simp] theorem State.setY_mem (s : State) (v : Byte) : (s.setY v).mem = s.mem := rfl
@[simp] theorem State.setY_memSize (s : State) (v : Byte) : (s.setY v).memSize = s.memSize := rfl
@[simp] theorem State.setY_draws (s : State) (v : Byte) : (s.setY v).draws = s.draws := rfl

/-! `State.setPC` -/

@[simp] theorem State.setPC_a (s : State) (v : Word) : (s.setPC v).a = s.a := rfl
@[simp] theorem State.setPC_x (s : State) (v : Word) : (s.setPC v).x = s.x := rfl
@[simp] theorem State.setPC_y (s : State) (v : Word) : (s.setPC v).y = s.y := rfl
@[simp] theorem State.setPC_sp (s : State) (v : Word) : (s.setPC v).sp = s.sp := rfl
@[simp] theorem State.setPC_pc (s : State) (v : Word) : (s.setPC v).pc = v := rfl
@[simp] theorem State.setPC_carry (s : State) (v : Word) : (s.setPC v).carry = s.carry := rfl
@[simp] theorem State.setPC_zero (s : State) (v : Word) : (s.setPC v).zero = s.zero := rfl
@[simp] theorem State.setPC_interruptDisable (s : State) (v : Word) : (s.setPC v).interruptDisable = s.interruptDisable := rfl
@[simp] theorem State.setPC_decimalMode (s : State) (v : Word) : (s.setPC v).decimalMode = s.decimalMode := rfl
@[simp] theorem State.setPC_breakFlag (s : State) (v : Word) : (s.setPC v).breakFlag = s.breakFlag := rfl
@[simp] theorem State.setPC_overflow (s : State) (v : Word) : (s.setPC v).overflow = s.overflow := rfl
@[simp] theorem State.setPC_negative (s : State) (v : Word) : (s.setPC v).negative = s.negative := rfl
@[simp] theorem State.setPC_running (s : State) (v : Word) : (s.setPC v).running = s.running := rfl
@[simp] theorem State.setPC_fault (s : State) (v : Word) : (s.setPC v).fault = s.fault := rfl
@[simp] theorem State.setPC_mem (s : State) (v : Word) : (s.setPC v).mem = s.mem := rfl
@[simp] theorem State.setPC_memSize (s : State) (v : Word) : (s.setPC v).memSize = s.memSize := rfl
@[simp] theorem State.setPC_draws (s : State) (v : Word) : (s.setPC v).draws = s.draws := rfl

/-! `State.setC` -/

@[simp] theorem State.setC_a (s : State) (v : Bool) : (s.setC v).a = s.a := rfl
@[simp] theorem State.setC_x (s : State) (v : Bool) : (s.setC v).x = s.x := rfl
@[simp] theorem State.setC_y (s : State) (v : Bool) : (s.setC v).y = s.y := rfl
@[simp] theorem State.setC_sp (s : State) (v : Bool) : (s.setC v).sp = s.sp := rfl
@[simp] theorem State.setC_pc (s : State) (v : Bool) : (s.setC v).pc = s.pc := rfl
@[simp] theorem State.setC_carry (s : State) (v : Bool) : (s.setC v).carry = v := rfl
@[simp] theorem State.setC_zero (s : State) (v : Bool) : (s.setC v).zero = s.zero := rfl
@[simp] theorem State.setC_interruptDisable (s : State) (v : Bool) : (s.setC v).interruptDisable = s.interruptDisable := rfl
@[simp] theorem State.setC_decimalMode (s : State) (v : Bool) : (s.setC v).decimalMode = s.decimalMode := rfl
@[simp] theorem State.setC_breakFlag (s : State) (v : Bool) : (s.setC v).breakFlag = s.breakFlag := rfl
@[simp] theorem State.setC_overflow (s : State) (v : Bool) : (s.setC v).overflow = s.overflow := rfl
@[simp] theorem State.setC_negative (s : State) (v : Bool) : (s.setC v).negative = s.negative := rfl
@[simp] theorem State.setC_running (s : State) (v : Bool) : (s.setC v).running = s.running := rfl
@[simp] theorem State.setC_fault (s : State) (v : Bool) : (s.setC v).fault = s.fault := rfl
@[simp] theorem State.setC_mem (s : State) (v : Bool) : (s.setC v).mem = s.mem := rfl
@[simp] theorem State.setC_memSize (s : State) (v : Bool) : (s.setC v).memSize = s.memSize := rfl
@[simp] theorem State.setC_draws (s : State) (v : Bool) : (s.setC v).draws = s.draws := rfl

/-! `State.setV` -/

@[simp] theorem State.setV_a (s : State) (v : Bool) : (s.setV v).a = s.a := rfl
@[simp] theorem State.setV_x (s : State) (v : Bool) : (s.setV v).x = s.x := rfl
@[simp] theorem State.setV_y (s : State) (v : Bool) : (s.setV v).y = s.y := rfl
@[simp] theorem State.setV_sp (s : State) (v : Bool) : (s.setV v).sp = s.sp := rfl
@[simp] theorem State.setV_pc (s : State) (v : Bool) : (s.setV v).pc = s.pc := rfl
@[simp] theorem State.setV_carry (s : State) (v : Bool) : (s.setV v).carry = s.carry := rfl
@[simp] theorem State.setV_zero (s : State) (v : Bool) : (s.setV v).zero = s.zero := rfl
@[simp] theorem State.setV_interruptDisable (s : State) (v : Bool) : (s.setV v).interruptDisable = s.interruptDisable := rfl
@[simp] theorem State.setV_decimalMode (s : State) (v : Bool) : (s.setV v).decimalMode = s.decimalMode := rfl
@[simp] theorem State.setV_breakFlag (s : State) (v : Bool) : (s.setV v).breakFlag = s.breakFlag := rfl
@[simp] theorem State.setV_overflow (s : State) (v : Bool) : (s.setV v).overflow = v := rfl
@[simp] theorem State.setV_negative (s : State) (v : Bool) : (s.setV v).negative = s.negative := rfl
@[simp] theorem State.setV_running (s : State) (v : Bool) : (s.setV v).running = s.running := rfl
@[simp] theorem State.setV_fault (s : State) (v : Bool) : (s.setV v).fault = s.fault := rfl
@[simp] theorem State.setV_mem (s : State) (v : Bool) : (s.setV v).mem = s.mem := rfl
@[simp] theorem State.setV_memSize (s : State) (v : Bool) : (s.setV v).memSize = s.memSize := rfl
@[simp] theorem State.setV_draws (s : State) (v : Bool) : (s.setV v).draws = s.draws := rfl

/-! `State.setB` -/

@[simp] theorem State.setB_a (s : State) (v : Bool) : (s.setB v).a = s.a := rfl
@[simp] theorem State.setB_x (s : State) (v : Bool) : (s.setB v).x = s.x := rfl
@[simp] theorem State.setB_y (s : State) (v : Bool) : (s.setB v).y = s.y := rfl
@[simp] theorem State.setB_sp (s : State) (v : Bool) : (s.setB v).sp = s.sp := rfl
@[simp] theorem State.setB_pc (s : State) (v : Bool) : (s.setB v).pc = s.pc := rfl
@[simp] theorem State.setB_carry (s : State) (v : Bool) : (s.setB v).carry = s.carry := rfl
@[simp] theorem State.setB_zero (s : State) (v : Bool) : (s.setB v).zero = s.zero := rfl
@[simp] theorem State.setB_interruptDisable (s : State) (v : Bool) : (s.setB v).interruptDisable = s.interruptDisable := rfl
@[simp] theorem State.setB_decimalMode (s : State) (v : Bool) : (s.setB v).decimalMode = s.decimalMode := rfl
@[simp] theorem State.setB_breakFlag (s : State) (v : Bool) : (s.setB v).breakFlag = v := rfl
@[simp] theorem State.setB_overflow (s : State) (v : Bool) : (s.setB v).overflow = s.overflow := rfl
@[simp] theorem State.setB_negative (s : State) (v : Bool) : (s.setB v).negative = s.negative := rfl
@[simp] theorem State.setB_running (s : State) (v : Bool) : (s.setB v).running = s.running := rfl
@[simp] theorem State.setB_fault (s : State) (v : Bool) : (s.setB v).fault = s.fault := rfl
@[simp] theorem State.setB_mem (s : State) (v : Bool) : (s.setB v).mem = s.mem := rfl
@[simp] theorem State.setB_memSize (s : State) (v : Bool) : (s.setB v).memSize = s.memSize := rfl
@[simp] theorem State.setB_draws (s : State) (v : Bool) : (s.setB v).draws = s.draws := rfl

/-! `State.halt` -/

@[simp] theorem State.halt_a (s : State) : s.halt.a = s.a := rfl
@[simp] theorem State.halt_x (s : State) : s.halt.x = s.x := rfl
@[simp] theorem State.halt_y (s : State) : s.halt.y = s.y := rfl
@[simp] theorem State.halt_sp (s : State) : s.halt.sp = s.sp := rfl
@[simp] theorem State.halt_pc (s : State) : s.halt.pc = s.pc := rfl
@[simp] theorem State.halt_carry (s : State) : s.halt.carry = s.carry := rfl
@[simp] theorem State.halt_zero (s : State) : s.halt.zero = s.zero := rfl
@[simp] theorem State.halt_interruptDisable (s : State) : s.halt.interruptDisable = s.interruptDisable := rfl
@[simp] theorem State.halt_decimalMode (s : State) : s.halt.decimalMode = s.decimalMode := rfl
@[simp] theorem State.halt_breakFlag (s : State) : s.halt.breakFlag = s.breakFlag := rfl
@[simp] theorem State.halt_overflow (s : State) : s.halt.overflow = s.overflow := rfl
@[simp] theorem State.halt_negative (s : State) : s.halt.negative = s.negative := rfl
@[simp] theorem State.halt_running (s : State) : s.halt.running = false := rfl
@[simp] theorem State.halt_fault (s : State) : s.halt.fault = s.fault := rfl
@[simp] theorem State.halt_mem (s : State) : s.halt.mem = s.mem := rfl
@[simp] theorem State.halt_memSize (s : State) : s.halt.memSize = s.memSize := rfl
@[simp] theorem State.halt_draws (s : State) : s.halt.draws = s.draws := rfl

/-! `State.setMem` -/

@[simp] theorem State.setMem_a (s : State) (m : Memory) : (s.setMem m).a = s.a := rfl
@[simp] theorem State.setMem_x (s : State) (m : Memory) : (s.setMem m).x = s.x := rfl
@[simp] theorem State.setMem_y (s : State) (m : Memory) : (s.setMem m).y = s.y := rfl
@[simp] theorem State.setMem_sp (s : State) (m : Memory) : (s.setMem m).sp = s.sp := rfl
@[simp] theorem State.setMem_pc (s : State) (m : Memory) : (s.setMem m).pc = s.pc := rfl
@[simp] theorem State.setMem_carry (s : State) (m : Memory) : (s.setMem m).carry = s.carry := rfl
@[simp] theorem State.setMem_zero (s : State) (m : Memory) : (s.setMem m).zero = s.zero := rfl
@[simp] theorem State.setMem_interruptDisable (s : State) (m : Memory) : (s.setMem m).interruptDisable = s.interruptDisable := rfl
@[simp] theorem State.setMem_decimalMode (s : State) (m : Memory) : (s.setMem m).decimalMode = s.decimalMode := rfl
@[simp] theorem State.setMem_breakFlag (s : State) (m : Memory) : (s.setMem m).breakFlag = s.breakFlag := rfl
@[simp] theorem State.setMem_overflow (s : State) (m : Memory) : (s.setMem m).overflow = s.overflow := rfl
@[simp] theorem State.setMem_negative (s : State) (m : Memory) : (s.setMem m).negative = s.negative := rfl
@[simp] theorem State.setMem_running (s : State) (m : Memory) : (s.setMem m).running = s.running := rfl
@[simp] theorem State.setMem_fault (s : State) (m : Memory) : (s.setMem m).fault = s.fault := rfl
@[simp] theorem State.setMem_mem (s : State) (m : Memory) : (s.setMem m).mem = m := rfl
@[simp] theorem State.setMem_memSize (s : State) (m : Memory) : (s.setMem m).memSize = s.memSize := rfl
@[simp] theorem State.setMem_draws (s : State) (m : Memory) : (s.setMem m).draws = s.draws := rfl

/-! `State.drew` -/

@[simp] theorem State.drew_a (s : State) : s.drew.a = s.a := rfl
@[simp] theorem State.drew_x (s : State) : s.drew.x = s.x := rfl
@[simp] theorem State.drew_y (s : State) : s.drew.y = s.y := rfl
@[simp] theorem State.drew_sp (s : State) : s.drew.sp = s.sp := rfl
@[simp] theorem State.drew_pc (s : State) : s.drew.pc = s.pc := rfl
@[simp] theorem State.drew_carry (s : State) : s.drew.carry = s.carry := rfl
@[simp] theorem State.drew_zero (s : State) : s.drew.zero = s.zero := rfl
@[simp] theorem State.drew_interruptDisable (s : State) : s.drew.interruptDisable = s.interruptDisable := rfl
@[simp] theorem State.drew_decimalMode (s : State) : s.drew.decimalMode = s.decimalMode := rfl
@[simp] theorem State.drew_breakFlag (s : State) : s.drew.breakFlag = s.breakFlag := rfl
@[simp] theorem State.drew_overflow (s : State) : s.drew.overflow = s.overflow := rfl
@[simp] theorem State.drew_negative (s : State) : s.drew.negative = s.negative := rfl
@[simp] theorem State.drew_running (s : State) : s.drew.running = s.running := rfl
@[simp] theorem State.drew_fault (s : State) : s.drew.fault = s.fault := rfl
@[simp] theorem State.drew_mem (s : State) : s.drew.mem = s.mem := rfl
@[simp] theorem State.drew_memSize (s : State) : s.drew.memSize = s.memSize := rfl
@[simp] theorem State.drew_draws (s : State) : s.drew.draws = s.draws + 1 := rfl

/-! `State.takeFault` -/

@[simp] theorem State.takeFault_a (s : State) (f : Fault) : (s.takeFault f).a = s.a := rfl
@[simp] theorem State.takeFault_x (s : State) (f : Fault) : (s.takeFault f).x = s.x := rfl
@[simp] theorem State.takeFault_y (s : State) (f : Fault) : (s.takeFault f).y = s.y := rfl
@[simp] theorem State.takeFault_sp (s : State) (f : Fault) : (s.takeFault f).sp = s.sp := rfl
@[simp] theorem State.takeFault_pc (s : State) (f : Fault) : (s.takeFault f).pc = s.pc := rfl
@[simp] theorem State.takeFault_carry (s : State) (f : Fault) : (s.takeFault f).carry = s.carry := rfl
@[simp] theorem State.takeFault_zero (s : State) (f : Fault) : (s.takeFault f).zero = s.zero := rfl
@[simp] theorem State.takeFault_interruptDisable (s : State) (f : Fault) : (s.takeFault f).interruptDisable = s.interruptDisable := rfl
@[simp] theorem State.takeFault_decimalMode (s : State) (f : Fault) : (s.takeFault f).decimalMode = s.decimalMode := rfl
@[simp] theorem State.takeFault_breakFlag (s : State) (f : Fault) : (s.takeFault f).breakFlag = s.breakFlag := rfl
@[simp] theorem State.takeFault_overflow (s : State) (f : Fault) : (s.takeFault f).overflow = s.overflow := rfl
@[simp] theorem State.takeFault_negative (s : State) (f : Fault) : (s.takeFault f).negative = s.negative := rfl
@[simp] theorem State.takeFault_running (s : State) (f : Fault) : (s.takeFault f).running = false := rfl
@[simp] theorem State.takeFault_fault (s : State) (f : Fault) : (s.takeFault f).fault = some f := rfl
@[simp] theorem State.takeFault_mem (s : State) (f : Fault) : (s.takeFault f).mem = s.mem := rfl
@[simp] theorem State.takeFault_memSize (s : State) (f : Fault) : (s.takeFault f).memSize = s.memSize := rfl
@[simp] theorem State.takeFault_draws (s : State) (f : Fault) : (s.takeFault f).draws = s.draws := rfl

/-! `State.setZN` -/

@[simp] theorem State.setZN_a (s : State) (v : Byte) : (s.setZN v).a = s.a := rfl
@[simp] theorem State.setZN_x (s : State) (v : Byte) : (s.setZN v).x = s.x := rfl
@[simp] theorem State.setZN_y (s : State) (v : Byte) : (s.setZN v).y = s.y := rfl
@[simp] theorem State.setZN_sp (s : State) (v : Byte) : (s.setZN v).sp = s.sp := rfl
@[simp] theorem State.setZN_pc (s : State) (v : Byte) : (s.setZN v).pc = s.pc := rfl
@[simp] theorem State.setZN_carry (s : State) (v : Byte) : (s.setZN v).carry = s.carry := rfl
@[simp] theorem State.setZN_zero (s : State) (v : Byte) : (s.setZN v).zero = (v == 0) := rfl
@[simp] theorem State.setZN_interruptDisable (s : State) (v : Byte) : (s.setZN v).interruptDisable = s.interruptDisable := rfl
@[simp] theorem State.setZN_decimalMode (s : State) (v : Byte) : (s.setZN v).decimalMode = s.decimalMode := rfl
@[simp] theorem State.setZN_breakFlag (s : State) (v : Byte) : (s.setZN v).breakFlag = s.breakFlag := rfl
@[simp] theorem State.setZN_overflow (s : State) (v : Byte) : (s.setZN v).overflow = s.overflow := rfl
@[simp] theorem State.setZN_negative (s : State) (v : Byte) : (s.setZN v).negative = v.getLsbD 7 := rfl
@[simp] theorem State.setZN_running (s : State) (v : Byte) : (s.setZN v).running = s.running := rfl
@[simp] theorem State.setZN_fault (s : State) (v : Byte) : (s.setZN v).fault = s.fault := rfl
@[simp] theorem State.setZN_mem (s : State) (v : Byte) : (s.setZN v).mem = s.mem := rfl
@[simp] theorem State.setZN_memSize (s : State) (v : Byte) : (s.setZN v).memSize = s.memSize := rfl
@[simp] theorem State.setZN_draws (s : State) (v : Byte) : (s.setZN v).draws = s.draws := rfl

end Sys2Proof.Machine
end

