-- ==== Sys2Proof/Laws/Ops.lean ====
section
/-! SUPPORT. One lemma for each shared operation, saying once everything it can do: memory accesses, pointer reads,
resolution, fetching. A part of a step that has not raised changes nothing but PC and the model's draw counter. -/

namespace Sys2Proof.Machine

/-! Words. -/

theorem mk16_toNat (hi lo : Byte) : (mk16 hi lo).toNat = hi.toNat * 256 + lo.toNat := by
  have := lo.isLt
  have := hi.isLt
  simp only [mk16, BitVec.toNat_append]
  rw [← Nat.shiftLeft_add_eq_or_of_lt (by omega), Nat.shiftLeft_eq]

@[simp] theorem loByte_mk16 (hi lo : Byte) : loByte (mk16 hi lo) = lo := by
  apply BitVec.eq_of_toNat_eq
  have := lo.isLt
  simp only [loByte, BitVec.extractLsb'_toNat, Nat.shiftRight_zero, mk16_toNat]
  omega

@[simp] theorem hiByte_mk16 (hi lo : Byte) : hiByte (mk16 hi lo) = hi := by
  apply BitVec.eq_of_toNat_eq
  have := lo.isLt
  have := hi.isLt
  simp only [hiByte, BitVec.extractLsb'_toNat, mk16_toNat, Nat.shiftRight_eq_div_pow]
  omega

@[simp] theorem mk16_bytes (w : Word) : mk16 (hiByte w) (loByte w) = w := by
  apply BitVec.eq_of_toNat_eq
  have := w.isLt
  simp only [mk16_toNat, hiByte, loByte, BitVec.extractLsb'_toNat, Nat.shiftRight_eq_div_pow]
  omega

@[simp] theorem zext16_toNat (b : Byte) : (zext16 b).toNat = b.toNat := by
  have := b.isLt
  simp only [zext16, BitVec.toNat_setWidth]
  omega

/-! `Attempt`. -/

@[simp] theorem Attempt.andThen_done {α β : Type} (v : α) (s : State) (k : α → State → Attempt β) :
    (Attempt.done v s).andThen k = k v s := rfl

@[simp] theorem Attempt.andThen_raised {α β : Type} (s : State) (k : α → State → Attempt β) :
    (Attempt.raised s).andThen k = .raised s := rfl

@[simp] theorem Attempt.finish_done {α : Type} (v : α) (s : State) (body : α → State → State) :
    (Attempt.done v s).finish body = .next (body v s) := rfl

@[simp] theorem Attempt.finish_raised {α : Type} (s : State) (body : α → State → State) :
    (Attempt.raised s).finish body = .next s := rfl

/-! Reads and writes. -/

/-- The state after some draws: nothing else of it differs. -/
def State.atDraws (s : State) (n : Nat) : State := { s with draws := n }

@[simp] theorem State.atDraws_self (s : State) : s.atDraws s.draws = s := rfl
@[simp] theorem State.atDraws_atDraws (s : State) (m n : Nat) : (s.atDraws m).atDraws n = s.atDraws n := rfl
@[simp] theorem State.atDraws_draws (s : State) (n : Nat) : (s.atDraws n).draws = n := rfl
@[simp] theorem State.atDraws_a (s : State) (n : Nat) : (s.atDraws n).a = s.a := rfl
@[simp] theorem State.atDraws_x (s : State) (n : Nat) : (s.atDraws n).x = s.x := rfl
@[simp] theorem State.atDraws_y (s : State) (n : Nat) : (s.atDraws n).y = s.y := rfl
@[simp] theorem State.atDraws_sp (s : State) (n : Nat) : (s.atDraws n).sp = s.sp := rfl
@[simp] theorem State.atDraws_pc (s : State) (n : Nat) : (s.atDraws n).pc = s.pc := rfl
@[simp] theorem State.atDraws_carry (s : State) (n : Nat) : (s.atDraws n).carry = s.carry := rfl
@[simp] theorem State.atDraws_zero (s : State) (n : Nat) : (s.atDraws n).zero = s.zero := rfl
@[simp] theorem State.atDraws_interruptDisable (s : State) (n : Nat) : (s.atDraws n).interruptDisable = s.interruptDisable := rfl
@[simp] theorem State.atDraws_decimalMode (s : State) (n : Nat) : (s.atDraws n).decimalMode = s.decimalMode := rfl
@[simp] theorem State.atDraws_breakFlag (s : State) (n : Nat) : (s.atDraws n).breakFlag = s.breakFlag := rfl
@[simp] theorem State.atDraws_overflow (s : State) (n : Nat) : (s.atDraws n).overflow = s.overflow := rfl
@[simp] theorem State.atDraws_negative (s : State) (n : Nat) : (s.atDraws n).negative = s.negative := rfl
@[simp] theorem State.atDraws_running (s : State) (n : Nat) : (s.atDraws n).running = s.running := rfl
@[simp] theorem State.atDraws_fault (s : State) (n : Nat) : (s.atDraws n).fault = s.fault := rfl
@[simp] theorem State.atDraws_mem (s : State) (n : Nat) : (s.atDraws n).mem = s.mem := rfl
@[simp] theorem State.atDraws_memSize (s : State) (n : Nat) : (s.atDraws n).memSize = s.memSize := rfl

/-- The number of draws a read of an address takes. -/
def drawsOf (a : Word) : Nat := if a = Config.trapAddr then 1 else 0

theorem State.afterRead_eq (s : State) (a : Word) : s.afterRead a = s.atDraws (s.draws + drawsOf a) := by
  unfold State.afterRead drawsOf
  split <;> rfl

@[simp] theorem State.afterRead_memSize (s : State) (a : Word) : (s.afterRead a).memSize = s.memSize := by
  rw [State.afterRead_eq]; rfl

@[simp] theorem State.afterRead_mem (s : State) (a : Word) : (s.afterRead a).mem = s.mem := by
  rw [State.afterRead_eq]; rfl

@[simp] theorem State.afterRead_pc (s : State) (a : Word) : (s.afterRead a).pc = s.pc := by
  rw [State.afterRead_eq]; rfl

theorem State.peek_of_ne {s : State} {a : Word} (h : a ≠ Config.trapAddr) : s.peek a = s.mem.read a.toNat := by
  simp [State.peek, h]

theorem State.afterRead_of_ne {s : State} {a : Word} (h : a ≠ Config.trapAddr) : s.afterRead a = s := by
  simp [State.afterRead, h]

theorem memRead_valid {pc0 a : Word} {s : State} (h : s.validAddr a) :
    memRead pc0 a s = .done (s.peek a) (s.afterRead a) := by simp [memRead, h]

theorem memRead_invalid {pc0 a : Word} {s : State} (h : ¬ s.validAddr a) :
    memRead pc0 a s = .raised (s.takeFault (.outOfBounds a pc0)) := by simp only [memRead, if_neg h]

theorem memWrite_valid {pc0 a : Word} {v : Byte} {s : State} (h : s.validAddr a) :
    memWrite pc0 a v s = .done () (s.setMem (s.mem.write a.toNat v)) := by simp [memWrite, h]

theorem memWrite_invalid {pc0 a : Word} {v : Byte} {s : State} (h : ¬ s.validAddr a) :
    memWrite pc0 a v s = .raised (s.takeFault (.outOfBounds a pc0)) := by simp only [memWrite, if_neg h]

/-- The state of an `OutOfBounds` raised after some draws. -/
def State.oob (s : State) (n : Nat) (a pc0 : Word) : State := (s.atDraws n).takeFault (.outOfBounds a pc0)

@[simp] theorem State.atDraws_oob (s : State) (m n : Nat) (a pc0 : Word) :
    (s.atDraws m).oob n a pc0 = s.oob n a pc0 := rfl

/-- A read of one byte: it completes, taking the draws of its address, or raises. -/
theorem memRead_cases (pc0 a : Word) (s : State) :
    (s.validAddr a ∧ memRead pc0 a s = .done (s.peek a) (s.atDraws (s.draws + drawsOf a))) ∨
    (¬ s.validAddr a ∧ memRead pc0 a s = .raised (s.oob s.draws a pc0)) := by
  by_cases h : s.validAddr a
  · exact .inl ⟨h, by rw [memRead_valid h, State.afterRead_eq]⟩
  · exact .inr ⟨h, by rw [memRead_invalid h]; rfl⟩

/-- Two reads making a word, low byte first: both complete, or the first or the second raises. -/
theorem twoReads_cases (pc0 a b : Word) (s : State) :
    (∃ w n, (((memRead pc0 a s).andThen fun lo t => (memRead pc0 b t).andThen fun hi u => .done (mk16 hi lo) u) =
        .done w (s.atDraws n)) ∧ s.validAddr a ∧ s.validAddr b ∧ n = s.draws + drawsOf a + drawsOf b ∧
        w = mk16 ((s.atDraws (s.draws + drawsOf a)).peek b) (s.peek a)) ∨
    (∃ c n, (((memRead pc0 a s).andThen fun lo t => (memRead pc0 b t).andThen fun hi u => .done (mk16 hi lo) u) =
        .raised (s.oob n c pc0)) ∧ ((c = a ∧ ¬ s.validAddr a ∧ n = s.draws) ∨
          (c = b ∧ s.validAddr a ∧ ¬ s.validAddr b ∧ n = s.draws + drawsOf a))) := by
  rcases memRead_cases pc0 a s with ⟨ha, h⟩ | ⟨ha, h⟩
  · rcases memRead_cases pc0 b (s.atDraws (s.draws + drawsOf a)) with ⟨hb, h'⟩ | ⟨hb, h'⟩
    · exact .inl ⟨_, _, by rw [h, Attempt.andThen_done, h']; rfl, ha, hb, rfl, rfl⟩
    · exact .inr ⟨_, _, by rw [h, Attempt.andThen_done, h']; rfl, .inr ⟨rfl, ha, hb, rfl⟩⟩
  · exact .inr ⟨_, _, by rw [h]; rfl, .inl ⟨rfl, ha, rfl⟩⟩

/-- Resolution: an address, having changed nothing but the draw counter, or an `OutOfBounds` of a pointer read. -/
theorem resolve_cases (pc0 : Word) (m : MemForm) (s : State) :
    (∃ ea n, resolve pc0 m s = .done ea (s.atDraws n)) ∨
    (∃ a n, resolve pc0 m s = .raised (s.oob n a pc0) ∧ ¬ s.validAddr a) := by
  cases m with
  | zp z => exact .inl ⟨_, s.draws, rfl⟩
  | zpX z => exact .inl ⟨_, s.draws, rfl⟩
  | zpY z => exact .inl ⟨_, s.draws, rfl⟩
  | abs w => exact .inl ⟨_, s.draws, rfl⟩
  | absX w => exact .inl ⟨_, s.draws, rfl⟩
  | absY w => exact .inl ⟨_, s.draws, rfl⟩
  | indX p =>
    rcases twoReads_cases pc0 (zext16 (p + s.x)) (zext16 (p + s.x + 1)) s with ⟨w, n, h, -⟩ | ⟨c, n, h, hc⟩
    · exact .inl ⟨w, n, h⟩
    · exact .inr ⟨c, n, h, by rcases hc with ⟨rfl, h, -⟩ | ⟨rfl, -, h, -⟩ <;> exact h⟩
  | indY p =>
    rcases twoReads_cases pc0 (zext16 p) (zext16 (p + 1)) s with ⟨w, n, h, -⟩ | ⟨c, n, h, hc⟩
    · exact .inl ⟨_, n, by simp only [resolve, readZpPointer]; rw [h]; rfl⟩
    · exact .inr ⟨c, n, by simp only [resolve, readZpPointer]; rw [h]; rfl,
        by rcases hc with ⟨rfl, h, -⟩ | ⟨rfl, -, h, -⟩ <;> exact h⟩

/-- Fetching a byte: PC advances past it, or the fetch raises at PC with PC unmoved. -/
theorem fetch8_cases (pc0 : Word) (s : State) :
    (s.validAddr s.pc ∧
      fetch8 pc0 s = .done (s.peek s.pc) ((s.setPC (s.pc + 1)).atDraws (s.draws + drawsOf s.pc))) ∨
    (¬ s.validAddr s.pc ∧ fetch8 pc0 s = .raised (s.oob s.draws s.pc pc0)) := by
  rcases memRead_cases pc0 s.pc s with ⟨ha, h⟩ | ⟨ha, h⟩
  · exact .inl ⟨ha, by rw [fetch8, h]; rfl⟩
  · exact .inr ⟨ha, by rw [fetch8, h]; rfl⟩

end Sys2Proof.Machine
end

