-- ==== Sys2Proof/Laws/Exec.lean ====
section
/-! SUPPORT. What an instruction can do, said once: `behaviour` sorts the 80 instructions into six shapes over a body, `exec`
is the run of its behaviour, and each shape has one lemma listing its outcomes. Later proofs cite these and never unfold
an instruction's own definition. -/

namespace Sys2Proof.Machine

/-- The shapes of an instruction: a body alone; a body on the byte of its cell; a store; a read-modify-write; JMP IND. -/
inductive Behaviour where
  | body (f : State → State)
  | reads (m : MemForm) (f : Byte → State → State)
  | stores (m : MemForm) (reg : State → Byte)
  | modifies (m : MemForm) (g : Byte → Byte) (f : Byte → State → State)
  | pointer (w : Word)

/-- A behaviour run in a state. -/
def Behaviour.run (s : State) : Behaviour → StepResult
  | .body f => .next (f s)
  | .reads m f => readThen m f s
  | .stores m reg => storeByte m (reg s) s
  | .modifies m g f => modifyThen m g f s
  | .pointer w => (readPointer (instrStart 3 s) w s).finish fun t u => u.setPC t

/-- The body of a branch. -/
def branchBody (cond : State → Bool) (d : Byte) (s : State) : State :=
  if cond s then s.setPC (relTarget s.pc d) else s

/-- The behaviour of a memory form of a mnemonic. -/
def memBehaviour (n : Mnemonic) (m : MemForm) : Behaviour :=
  match n with
  | .lda => .reads m ldaBody
  | .ldx => .reads m ldxBody
  | .ora => .reads m oraBody
  | .and => .reads m andBody
  | .adc => .reads m adcBody
  | .cmp => .reads m cmpBody
  | .sta => .stores m State.a
  | .stx => .stores m State.x
  | .asl => .modifies m aslValue aslFlags
  | .inc => .modifies m incValue incFlags
  | .dec => .modifies m decValue decFlags
  | _ => .body id

/-- The behaviour of an instruction without a memory form. -/
def plainBehaviour : Instr → Behaviour
  | .ldaImm v => .body (ldaBody v)
  | .ldxImm v => .body (ldxBody v)
  | .oraImm v => .body (oraBody v)
  | .andImm v => .body (andBody v)
  | .adcImm v => .body (adcBody v)
  | .cmpImm v => .body (cmpBody v)
  | .tax => .body fun s => (s.setX s.a).setZN s.a
  | .txa => .body fun s => (s.setA s.x).setZN s.x
  | .tay => .body fun s => (s.setY s.a).setZN s.a
  | .tya => .body fun s => (s.setA s.y).setZN s.y
  | .aslAcc => .body fun s => aslFlags s.a (s.setA (aslValue s.a))
  | .inx => .body fun s => (s.setX (s.x + 1)).setZN (s.x + 1)
  | .iny => .body fun s => (s.setY (s.y + 1)).setZN (s.y + 1)
  | .jmpAbs w => .body fun s => s.setPC w
  | .jmpInd w => .pointer w
  | .beq d => .body (branchBody State.zero d)
  | .bne d => .body (branchBody (fun s => !s.zero) d)
  | .nop => .body id
  | .brk => .body fun s => (s.setB true).halt
  | _ => .body id

/-- The behaviour of each instruction. -/
def behaviour (i : Instr) : Behaviour :=
  match memFormOf i with
  | some m => memBehaviour i.mnemonic m
  | none => plainBehaviour i

/-- `exec` is the run of the behaviour. -/
theorem exec_eq_run (i : Instr) (s : State) : exec i s = (behaviour i).run s := by
  cases i <;> rfl

/-- The memory form of an instruction, if it has one, has the instruction's length. -/
theorem formLength_all (i : Instr) : (memFormOf i).all (fun m => formLength m == i.length) = true := by
  cases i <;> rfl

theorem formLength_eq {i : Instr} {m : MemForm} (h : memFormOf i = some m) : formLength m = i.length := by
  have := formLength_all i
  rw [h] at this
  simpa using this

/-- The behaviour of an instruction with a memory form. -/
theorem behaviour_of_form {i : Instr} {m : MemForm} (h : memFormOf i = some m) :
    behaviour i = memBehaviour i.mnemonic m := by
  simp only [behaviour, h]

/-- The behaviour of an instruction without one. -/
theorem behaviour_of_none {i : Instr} (h : memFormOf i = none) : behaviour i = plainBehaviour i := by
  simp only [behaviour, h]

/-! One lemma for each shape. -/

theorem readThen_done {m : MemForm} {s t : State} {ea : Word} (f : Byte → State → State)
    (h : resolve (instrStart (formLength m) s) m s = .done ea t) (hv : t.validAddr ea) :
    readThen m f s = .next (f (t.peek ea) (t.afterRead ea)) := by
  simp only [readThen, h, Attempt.andThen_done, memRead_valid hv, Attempt.finish_done]

theorem readThen_oob {m : MemForm} {s t : State} {ea : Word} (f : Byte → State → State)
    (h : resolve (instrStart (formLength m) s) m s = .done ea t) (hv : ¬ t.validAddr ea) :
    readThen m f s = .next (t.takeFault (.outOfBounds ea (instrStart (formLength m) s))) := by
  simp only [readThen, h, Attempt.andThen_done, memRead_invalid hv, Attempt.finish_raised]

theorem readThen_raised {m : MemForm} {s t : State} (f : Byte → State → State)
    (h : resolve (instrStart (formLength m) s) m s = .raised t) : readThen m f s = .next t := by
  simp only [readThen, h, Attempt.andThen_raised, Attempt.finish_raised]

theorem storeByte_done {m : MemForm} {s t : State} {ea : Word} (v : Byte)
    (h : resolve (instrStart (formLength m) s) m s = .done ea t) (hv : t.validAddr ea) :
    storeByte m v s = .next (t.setMem (t.mem.write ea.toNat v)) := by
  simp only [storeByte, h, Attempt.andThen_done, memWrite_valid hv, Attempt.finish_done]

theorem storeByte_oob {m : MemForm} {s t : State} {ea : Word} (v : Byte)
    (h : resolve (instrStart (formLength m) s) m s = .done ea t) (hv : ¬ t.validAddr ea) :
    storeByte m v s = .next (t.takeFault (.outOfBounds ea (instrStart (formLength m) s))) := by
  simp only [storeByte, h, Attempt.andThen_done, memWrite_invalid hv, Attempt.finish_raised]

theorem storeByte_raised {m : MemForm} {s t : State} (v : Byte)
    (h : resolve (instrStart (formLength m) s) m s = .raised t) : storeByte m v s = .next t := by
  simp only [storeByte, h, Attempt.andThen_raised, Attempt.finish_raised]

theorem modifyThen_done {m : MemForm} {s t : State} {ea : Word} (g : Byte → Byte) (f : Byte → State → State)
    (h : resolve (instrStart (formLength m) s) m s = .done ea t) (hv : t.validAddr ea) :
    modifyThen m g f s = .next (f (t.peek ea) ((t.afterRead ea).setMem (t.mem.write ea.toNat (g (t.peek ea))))) := by
  have hv' : (t.afterRead ea).validAddr ea := by simpa using hv
  simp only [modifyThen, h, Attempt.andThen_done, memRead_valid hv, memWrite_valid hv', Attempt.finish_done,
    State.afterRead_mem]

theorem modifyThen_oob {m : MemForm} {s t : State} {ea : Word} (g : Byte → Byte) (f : Byte → State → State)
    (h : resolve (instrStart (formLength m) s) m s = .done ea t) (hv : ¬ t.validAddr ea) :
    modifyThen m g f s = .next (t.takeFault (.outOfBounds ea (instrStart (formLength m) s))) := by
  simp only [modifyThen, h, Attempt.andThen_done, memRead_invalid hv, Attempt.andThen_raised, Attempt.finish_raised]

theorem modifyThen_raised {m : MemForm} {s t : State} (g : Byte → Byte) (f : Byte → State → State)
    (h : resolve (instrStart (formLength m) s) m s = .raised t) : modifyThen m g f s = .next t := by
  simp only [modifyThen, h, Attempt.andThen_raised, Attempt.finish_raised]

/-! The outcomes of a shape, with the state it started in named throughout. -/

theorem readThen_cases (m : MemForm) (f : Byte → State → State) (s : State) :
    (∃ ea n, resolve (instrStart (formLength m) s) m s = .done ea (s.atDraws n) ∧ s.validAddr ea ∧
      readThen m f s = .next (f ((s.atDraws n).peek ea) (s.atDraws (n + drawsOf ea)))) ∨
    (∃ a n, ¬ s.validAddr a ∧ readThen m f s = .next (s.oob n a (instrStart (formLength m) s))) := by
  rcases resolve_cases (instrStart (formLength m) s) m s with ⟨ea, n, h⟩ | ⟨a, n, h, ha⟩
  · by_cases hv : (s.atDraws n).validAddr ea
    · exact .inl ⟨ea, n, h, hv, by rw [readThen_done f h hv, State.afterRead_eq]; rfl⟩
    · exact .inr ⟨ea, n, hv, by rw [readThen_oob f h hv]; rfl⟩
  · exact .inr ⟨a, n, ha, readThen_raised f h⟩

theorem storeByte_cases (m : MemForm) (v : Byte) (s : State) :
    (∃ ea n, resolve (instrStart (formLength m) s) m s = .done ea (s.atDraws n) ∧ s.validAddr ea ∧
      storeByte m v s = .next ((s.atDraws n).setMem (s.mem.write ea.toNat v))) ∨
    (∃ a n, ¬ s.validAddr a ∧ storeByte m v s = .next (s.oob n a (instrStart (formLength m) s))) := by
  rcases resolve_cases (instrStart (formLength m) s) m s with ⟨ea, n, h⟩ | ⟨a, n, h, ha⟩
  · by_cases hv : (s.atDraws n).validAddr ea
    · exact .inl ⟨ea, n, h, hv, storeByte_done v h hv⟩
    · exact .inr ⟨ea, n, hv, by rw [storeByte_oob v h hv]; rfl⟩
  · exact .inr ⟨a, n, ha, storeByte_raised v h⟩

theorem modifyThen_cases (m : MemForm) (g : Byte → Byte) (f : Byte → State → State) (s : State) :
    (∃ ea n, resolve (instrStart (formLength m) s) m s = .done ea (s.atDraws n) ∧ s.validAddr ea ∧
      modifyThen m g f s = .next (f ((s.atDraws n).peek ea)
        ((s.atDraws (n + drawsOf ea)).setMem (s.mem.write ea.toNat (g ((s.atDraws n).peek ea)))))) ∨
    (∃ a n, ¬ s.validAddr a ∧ modifyThen m g f s = .next (s.oob n a (instrStart (formLength m) s))) := by
  rcases resolve_cases (instrStart (formLength m) s) m s with ⟨ea, n, h⟩ | ⟨a, n, h, ha⟩
  · by_cases hv : (s.atDraws n).validAddr ea
    · exact .inl ⟨ea, n, h, hv, by rw [modifyThen_done g f h hv, State.afterRead_eq]; rfl⟩
    · exact .inr ⟨ea, n, hv, by rw [modifyThen_oob g f h hv]; rfl⟩
  · exact .inr ⟨a, n, ha, modifyThen_raised g f h⟩

/-- JMP IND: PC at the word of the pointer, or a pointer read out of bounds. -/
theorem jmpInd_cases (w : Word) (s : State) :
    (∃ t n, s.validAddr w ∧ s.validAddr (w + 1) ∧ n = s.draws + drawsOf w + drawsOf (w + 1) ∧
      t = mk16 ((s.atDraws (s.draws + drawsOf w)).peek (w + 1)) (s.peek w) ∧
      exec (.jmpInd w) s = .next ((s.atDraws n).setPC t)) ∨
    (∃ a n, ¬ s.validAddr a ∧ exec (.jmpInd w) s = .next (s.oob n a (instrStart 3 s)) ∧
      ((a = w ∧ n = s.draws) ∨ (a = w + 1 ∧ s.validAddr w ∧ n = s.draws + drawsOf w))) := by
  have e : exec (.jmpInd w) s = (readPointer (instrStart 3 s) w s).finish fun t u => u.setPC t := rfl
  rw [e, readPointer]
  rcases twoReads_cases (instrStart 3 s) w (w + 1) s with ⟨t, n, h, hw, hw1, hn, ht⟩ | ⟨a, n, h, ha⟩
  · exact .inl ⟨t, n, hw, hw1, hn, ht, by rw [h]; rfl⟩
  · rcases ha with ⟨rfl, hna, hn⟩ | ⟨rfl, hw, hna, hn⟩
    · exact .inr ⟨a, n, hna, by rw [h]; rfl, .inl ⟨rfl, hn⟩⟩
    · exact .inr ⟨w + 1, n, hna, by rw [h]; rfl, .inr ⟨rfl, hw, hn⟩⟩

end Sys2Proof.Machine
end

