-- ==== Sys2Proof/Laws/Frames.lean ====
section
/-! SUPPORT. The frame of every instruction, said once: an instruction either raises an `OutOfBounds`, in the state it
started in but for draws, or keeps everything its rule does not list (R10, R16, R17, R111). -/

namespace Sys2Proof.Machine

/-- What an instruction that raises nothing keeps: the registers and flags its mnemonic does not write, FAULT, and every
byte but the one it stores. -/
structure Kept (i : Instr) (s t : State) : Prop where
  sp : t.sp = s.sp
  interruptDisable : t.interruptDisable = s.interruptDisable
  decimalMode : t.decimalMode = s.decimalMode
  fault : t.fault = s.fault
  memSize : t.memSize = s.memSize
  running : i ≠ .brk → t.running = s.running
  breakFlag : i ≠ .brk → t.breakFlag = s.breakFlag
  brk : i = .brk → t.running = false ∧ t.breakFlag = true
  overflow : i.mnemonic ≠ .adc → t.overflow = s.overflow
  carry : i.mnemonic ∉ [Mnemonic.adc, .asl, .cmp] → t.carry = s.carry
  zn : i.mnemonic ∈ [Mnemonic.sta, .stx, .jmp, .beq, .bne, .nop, .brk] → t.zero = s.zero ∧ t.negative = s.negative
  a : i.mnemonic ∉ [Mnemonic.lda, .txa, .tya, .ora, .and, .adc] → i ≠ .aslAcc → t.a = s.a
  x : i.mnemonic ∉ [Mnemonic.ldx, .tax, .inx] → t.x = s.x
  y : i.mnemonic ∉ [Mnemonic.tay, .iny] → t.y = s.y
  pc : i.mnemonic ∉ [Mnemonic.jmp, .beq, .bne] → t.pc = s.pc
  mem : t.mem = s.mem ∨ ∃ m ea n v, memFormOf i = some m ∧
    i.mnemonic ∈ [Mnemonic.sta, .stx, .asl, .inc, .dec] ∧
    resolve (instrStart (formLength m) s) m s = .done ea (s.atDraws n) ∧ s.validAddr ea ∧
    t.mem = s.mem.write ea.toNat v

/-- The mnemonics that have a memory form. -/
def formMnemonics : List Mnemonic := [.lda, .ldx, .ora, .and, .adc, .cmp, .sta, .stx, .asl, .inc, .dec]

theorem mnemonic_of_form {i : Instr} {m : MemForm} (h : memFormOf i = some m) : i.mnemonic ∈ formMnemonics := by
  have all : ∀ j : Instr, (memFormOf j).all (fun _ => formMnemonics.contains j.mnemonic) = true := by
    intro j; cases j <;> rfl
  have := all i
  rw [h] at this
  simpa using this

/-- An instruction with a memory form is none of the plain ones. -/
theorem form_not_plain {i : Instr} {m : MemForm} (h : memFormOf i = some m) : i ≠ .brk ∧ i ≠ .aslAcc := by
  constructor <;> rintro rfl <;> cases h

/-- The outcomes of an instruction with a memory form. -/
theorem exec_form_cases {i : Instr} {m : MemForm} (hm : memFormOf i = some m) (s : State) :
    (∃ t, exec i s = .next t ∧ Kept i s t) ∨
    (∃ a n, ¬ s.validAddr a ∧ exec i s = .next (s.oob n a (instrStart i.length s))) := by
  have e : exec i s = (memBehaviour i.mnemonic m).run s := by rw [exec_eq_run, behaviour_of_form hm]
  have hl := formLength_eq hm
  obtain ⟨hb, hc⟩ := form_not_plain hm
  have hmn := mnemonic_of_form hm
  rw [e, ← hl]
  cases hn : i.mnemonic <;> rw [hn] at hmn <;>
    first
    | exact absurd hmn (by decide)
    | (simp only [memBehaviour, Behaviour.run]
       first
       | (rcases readThen_cases m _ s with ⟨ea, n, hr, hv, h⟩ | h
          · exact .inl ⟨_, h, by constructor <;> simp [hn, hb, hc, ldaBody, ldxBody, oraBody, andBody, adcBody, cmpBody]⟩
          · exact .inr h)
       | (rcases storeByte_cases m _ s with ⟨ea, n, hr, hv, h⟩ | h
          · refine .inl ⟨_, h, ?_⟩
            constructor <;> first | exact .inr ⟨m, ea, n, _, hm, by simp [hn], hr, hv, rfl⟩ | simp [hn, hb, hc, State.atDraws]
          · exact .inr h)
       | (rcases modifyThen_cases m _ _ s with ⟨ea, n, hr, hv, h⟩ | h
          · refine .inl ⟨_, h, ?_⟩
            constructor <;>
              first
              | exact .inr ⟨m, ea, n, _, hm, by simp [hn], hr, hv, rfl⟩
              | simp [hn, hb, hc, State.atDraws, aslFlags, incFlags, decFlags]
          · exact .inr h))

/-- An instruction without a memory form, JMP IND apart, raises nothing. -/
theorem exec_plain_cases {i : Instr} (hm : memFormOf i = none) (hj : ∀ w, i ≠ .jmpInd w) (s : State) :
    ∃ t, exec i s = .next t ∧ Kept i s t := by
  have hb (cond : State → Bool) (d : Byte) : branchBody cond d s = s ∨ branchBody cond d s = s.setPC (relTarget s.pc d) := by
    unfold branchBody
    cases cond s <;> simp
  cases i <;> first | (cases hm; done) | (exact absurd rfl (hj _)) | skip
  case beq d =>
    refine ⟨branchBody State.zero d s, rfl, ?_⟩
    rcases hb State.zero d with h | h <;> rw [h] <;> constructor <;> simp [Instr.mnemonic]
  case bne d =>
    refine ⟨branchBody (fun s => !s.zero) d s, rfl, ?_⟩
    rcases hb (fun s => !s.zero) d with h | h <;> rw [h] <;> constructor <;> simp [Instr.mnemonic]
  all_goals
    refine ⟨_, rfl, ?_⟩
    constructor <;>
      simp [Instr.mnemonic, ldaBody, ldxBody, oraBody, andBody, adcBody, cmpBody, aslFlags]

/-- The outcomes of JMP IND. -/
theorem exec_jmpInd_cases (w : Word) (s : State) :
    (∃ t, exec (.jmpInd w) s = .next t ∧ Kept (.jmpInd w) s t) ∨
    (∃ a n, ¬ s.validAddr a ∧ exec (.jmpInd w) s = .next (s.oob n a (instrStart 3 s))) := by
  rcases jmpInd_cases w s with ⟨t, n, -, -, -, -, h⟩ | ⟨a, n, ha, h, -⟩
  · exact .inl ⟨_, h, by constructor <;> simp [Instr.mnemonic]⟩
  · exact .inr ⟨a, n, ha, h⟩

/-- Everything an instruction can do: keep what its rule does not list, or raise `OutOfBounds` on an address without a cell,
in the state it started in but for draws. -/
theorem exec_cases (i : Instr) (s : State) :
    (∃ t, exec i s = .next t ∧ Kept i s t) ∨
    (∃ a n, ¬ s.validAddr a ∧ exec i s = .next (s.oob n a (instrStart i.length s))) := by
  cases hm : memFormOf i with
  | some m => exact exec_form_cases hm s
  | none =>
    by_cases hj : ∃ w, i = .jmpInd w
    · obtain ⟨w, rfl⟩ := hj
      exact exec_jmpInd_cases w s
    · exact .inl (exec_plain_cases hm (fun w h => hj ⟨w, h⟩) s)

/-! The step. -/

/-- What a fetch has done to the state: moved PC on and taken draws. -/
def State.fetched (s : State) (pc : Word) (n : Nat) : State := (s.setPC pc).atDraws n

/-- Fetching a byte from a state some fetches into a step. -/
theorem fetch8_fetched (pc0 : Word) (s : State) (pc : Word) (n : Nat) :
    (∃ v, fetch8 pc0 (s.fetched pc n) = .done v (s.fetched (pc + 1) (n + drawsOf pc))) ∨
    (¬ s.validAddr pc ∧ fetch8 pc0 (s.fetched pc n) = .raised ((s.fetched pc n).takeFault (.outOfBounds pc pc0))) := by
  rcases fetch8_cases pc0 (s.fetched pc n) with ⟨-, h⟩ | ⟨hv, h⟩
  · exact .inl ⟨_, h⟩
  · exact .inr ⟨hv, h⟩

/-- The lengths of the instructions an entry builds (R70, R71). -/
theorem table_length {op : Byte} {e : Entry} (h : table op = some e) :
    match e with
    | .f1 i => i.length = 1
    | .f2 f => ∀ b, (f b).length = 2
    | .f3 f => ∀ w, (f w).length = 3 := by
  unfold table at h
  split at h <;> cases h <;> first | rfl | (intro _; rfl)

/-- The outcomes of the operand fetches, from the state the opcode fetch leaves. -/
theorem fetchOperand_cases {op : Byte} {e : Entry} (ht : table op = some e) (s : State) (n : Nat) :
    (∃ i k, fetchOperand s.pc e (s.fetched (s.pc + 1) n) = .done i (s.fetched (s.pc + BitVec.ofNat 16 i.length) k)) ∨
    (∃ pc k, ¬ s.validAddr pc ∧ fetchOperand s.pc e (s.fetched (s.pc + 1) n) =
      .raised ((s.fetched pc k).takeFault (.outOfBounds pc s.pc))) := by
  have e2 : s.pc + 1 + 1 = s.pc + 2 := by rw [BitVec.add_assoc]; rfl
  have e3 : s.pc + 2 + 1 = s.pc + 3 := by rw [BitVec.add_assoc]; rfl
  have hlen := table_length ht
  cases e with
  | f1 i =>
    simp only at hlen
    exact .inl ⟨i, n, by rw [hlen]; rfl⟩
  | f2 f =>
    simp only at hlen
    rcases fetch8_fetched s.pc s (s.pc + 1) n with ⟨b, h⟩ | ⟨hv, h⟩
    · exact .inl ⟨f b, n + drawsOf (s.pc + 1), by rw [fetchOperand, h, hlen, e2]; rfl⟩
    · exact .inr ⟨_, _, hv, by rw [fetchOperand, h]; rfl⟩
  | f3 f =>
    simp only at hlen
    rcases fetch8_fetched s.pc s (s.pc + 1) n with ⟨lo, h⟩ | ⟨hv, h⟩
    · rw [e2] at h
      rcases fetch8_fetched s.pc s (s.pc + 2) (n + drawsOf (s.pc + 1)) with ⟨hi, h'⟩ | ⟨hv', h'⟩
      · refine .inl ⟨f (mk16 hi lo), n + drawsOf (s.pc + 1) + drawsOf (s.pc + 2), ?_⟩
        rw [fetchOperand, fetch16, h, Attempt.andThen_done, h', hlen, e3]
        rfl
      · exact .inr ⟨_, _, hv', by rw [fetchOperand, fetch16, h, Attempt.andThen_done, h']; rfl⟩
    · exact .inr ⟨_, _, hv, by rw [fetchOperand, fetch16, h]; rfl⟩

/-- The outcomes of fetching an instruction. A fault is an `OutOfBounds` at the PC of the missing byte or an
`InvalidOpcode` one byte on, with the start of the instruction recorded. -/
theorem fetchInstr_cases (s : State) :
    (∃ i n, fetchInstr s = .done i (s.fetched (s.pc + BitVec.ofNat 16 i.length) n)) ∨
    (∃ pc n, ¬ s.validAddr pc ∧ fetchInstr s = .raised ((s.fetched pc n).takeFault (.outOfBounds pc s.pc))) ∨
    (∃ op n, table op = none ∧ s.validAddr s.pc ∧
      fetchInstr s = .raised ((s.fetched (s.pc + 1) n).takeFault (.invalidOpcode op s.pc))) := by
  rcases fetch8_cases s.pc s with ⟨hv, h⟩ | ⟨hv, h⟩
  · change fetch8 s.pc s = .done (s.peek s.pc) (s.fetched (s.pc + 1) (s.draws + drawsOf s.pc)) at h
    rw [fetchInstr, h, Attempt.andThen_done]
    cases ht : table (s.peek s.pc) with
    | none => exact .inr (.inr ⟨_, _, ht, hv, rfl⟩)
    | some e =>
      rcases fetchOperand_cases ht s (s.draws + drawsOf s.pc) with h | h
      · exact .inl h
      · exact .inr (.inl h)
  · exact .inr (.inl ⟨s.pc, s.draws, hv, by rw [fetchInstr, h]; rfl⟩)

theorem step_halted {s : State} (h : s.running = false) : step s = .next s := by
  rw [step, if_neg (by simp [h])]

theorem step_running {s : State} (h : s.running = true) :
    step s = match fetchInstr s with
      | .done i t => exec i t
      | .raised t => .next t := by
  unfold step
  exact if_pos h

/-- The start of an instruction, found again from the state its fetch leaves (R111). -/
theorem instrStart_fetched (s : State) (k n : Nat) :
    instrStart k (s.fetched (s.pc + BitVec.ofNat 16 k) n) = s.pc := by
  change s.pc + BitVec.ofNat 16 k - BitVec.ofNat 16 k = s.pc
  exact BitVec.add_sub_cancel _ _

/-- Everything a step of a running engine can do: run an instruction to its end; raise `OutOfBounds`; raise
`InvalidOpcode`. A fault leaves the state of before but for PC, RUNNING, FAULT and draws (R215). -/
theorem step_cases {s : State} (hr : s.running = true) :
    (∃ i n t, fetchInstr s = .done i (s.fetched (s.pc + BitVec.ofNat 16 i.length) n) ∧ step s = .next t ∧
      Kept i (s.fetched (s.pc + BitVec.ofNat 16 i.length) n) t) ∨
    (∃ a pc n, ¬ s.validAddr a ∧ step s = .next ((s.fetched pc n).takeFault (.outOfBounds a s.pc))) ∨
    (∃ op n, table op = none ∧ step s = .next ((s.fetched (s.pc + 1) n).takeFault (.invalidOpcode op s.pc))) := by
  rw [step_running hr]
  rcases fetchInstr_cases s with ⟨i, n, h⟩ | ⟨pc, n, hv, h⟩ | ⟨op, n, ht, -, h⟩
  · rw [h]
    rcases exec_cases i (s.fetched (s.pc + BitVec.ofNat 16 i.length) n) with ⟨t, ht, hk⟩ | ⟨a, k, ha, ht⟩
    · exact .inl ⟨i, n, t, rfl, ht, hk⟩
    · refine .inr (.inl ⟨a, s.pc + BitVec.ofNat 16 i.length, k, ha, ?_⟩)
      simp only
      rw [ht, instrStart_fetched]
      rfl
  · exact .inr (.inl ⟨pc, pc, n, hv, by rw [h]⟩)
  · exact .inr (.inr ⟨op, n, ht, by rw [h]⟩)

end Sys2Proof.Machine
end

