-- ==== Sys2Proof/Laws/PerInstr.lean ====
section
/-! SUPPORT. One statement for every instruction, as syntax: the first byte of its encoding is the table entry of its own
mnemonic and mode (30_encoding.md R74, R76, R77), and the bytes after it are as many as that entry takes (R70, R71). -/

namespace Sys2Proof.Laws.EncodedBytes

/-- The bytes of an instruction stand for it in the decode table. -/
def Statement (i : Instr) : Prop :=
  ∃ op rest, encode i = op :: rest ∧ (table op).map Entry.pair = some (i.mnemonic, i.mode) ∧
    (table op).map Entry.operandBytes = some rest.length

theorem ldaImm (v : Byte) : Statement (.ldaImm v) := ⟨_, _, rfl, rfl, rfl⟩
theorem ldaZp (z : Byte) : Statement (.ldaZp z) := ⟨_, _, rfl, rfl, rfl⟩
theorem ldaZpX (z : Byte) : Statement (.ldaZpX z) := ⟨_, _, rfl, rfl, rfl⟩
theorem ldaAbs (w : Word) : Statement (.ldaAbs w) := ⟨_, _, rfl, rfl, rfl⟩
theorem ldaAbsX (w : Word) : Statement (.ldaAbsX w) := ⟨_, _, rfl, rfl, rfl⟩
theorem ldaAbsY (w : Word) : Statement (.ldaAbsY w) := ⟨_, _, rfl, rfl, rfl⟩
theorem ldaIndX (p : Byte) : Statement (.ldaIndX p) := ⟨_, _, rfl, rfl, rfl⟩
theorem ldaIndY (p : Byte) : Statement (.ldaIndY p) := ⟨_, _, rfl, rfl, rfl⟩
theorem ldxImm (v : Byte) : Statement (.ldxImm v) := ⟨_, _, rfl, rfl, rfl⟩
theorem ldxZp (z : Byte) : Statement (.ldxZp z) := ⟨_, _, rfl, rfl, rfl⟩
theorem ldxZpY (z : Byte) : Statement (.ldxZpY z) := ⟨_, _, rfl, rfl, rfl⟩
theorem ldxAbs (w : Word) : Statement (.ldxAbs w) := ⟨_, _, rfl, rfl, rfl⟩
theorem ldxAbsY (w : Word) : Statement (.ldxAbsY w) := ⟨_, _, rfl, rfl, rfl⟩
theorem staZp (z : Byte) : Statement (.staZp z) := ⟨_, _, rfl, rfl, rfl⟩
theorem staZpX (z : Byte) : Statement (.staZpX z) := ⟨_, _, rfl, rfl, rfl⟩
theorem staAbs (w : Word) : Statement (.staAbs w) := ⟨_, _, rfl, rfl, rfl⟩
theorem staAbsX (w : Word) : Statement (.staAbsX w) := ⟨_, _, rfl, rfl, rfl⟩
theorem staAbsY (w : Word) : Statement (.staAbsY w) := ⟨_, _, rfl, rfl, rfl⟩
theorem staIndX (p : Byte) : Statement (.staIndX p) := ⟨_, _, rfl, rfl, rfl⟩
theorem staIndY (p : Byte) : Statement (.staIndY p) := ⟨_, _, rfl, rfl, rfl⟩
theorem stxZp (z : Byte) : Statement (.stxZp z) := ⟨_, _, rfl, rfl, rfl⟩
theorem stxZpY (z : Byte) : Statement (.stxZpY z) := ⟨_, _, rfl, rfl, rfl⟩
theorem stxAbs (w : Word) : Statement (.stxAbs w) := ⟨_, _, rfl, rfl, rfl⟩
theorem tax : Statement .tax := ⟨_, _, rfl, rfl, rfl⟩
theorem txa : Statement .txa := ⟨_, _, rfl, rfl, rfl⟩
theorem tay : Statement .tay := ⟨_, _, rfl, rfl, rfl⟩
theorem tya : Statement .tya := ⟨_, _, rfl, rfl, rfl⟩
theorem oraImm (v : Byte) : Statement (.oraImm v) := ⟨_, _, rfl, rfl, rfl⟩
theorem oraZp (z : Byte) : Statement (.oraZp z) := ⟨_, _, rfl, rfl, rfl⟩
theorem oraZpX (z : Byte) : Statement (.oraZpX z) := ⟨_, _, rfl, rfl, rfl⟩
theorem oraAbs (w : Word) : Statement (.oraAbs w) := ⟨_, _, rfl, rfl, rfl⟩
theorem oraAbsX (w : Word) : Statement (.oraAbsX w) := ⟨_, _, rfl, rfl, rfl⟩
theorem oraAbsY (w : Word) : Statement (.oraAbsY w) := ⟨_, _, rfl, rfl, rfl⟩
theorem oraIndX (p : Byte) : Statement (.oraIndX p) := ⟨_, _, rfl, rfl, rfl⟩
theorem oraIndY (p : Byte) : Statement (.oraIndY p) := ⟨_, _, rfl, rfl, rfl⟩
theorem andImm (v : Byte) : Statement (.andImm v) := ⟨_, _, rfl, rfl, rfl⟩
theorem andZp (z : Byte) : Statement (.andZp z) := ⟨_, _, rfl, rfl, rfl⟩
theorem andZpX (z : Byte) : Statement (.andZpX z) := ⟨_, _, rfl, rfl, rfl⟩
theorem andAbs (w : Word) : Statement (.andAbs w) := ⟨_, _, rfl, rfl, rfl⟩
theorem andAbsX (w : Word) : Statement (.andAbsX w) := ⟨_, _, rfl, rfl, rfl⟩
theorem andAbsY (w : Word) : Statement (.andAbsY w) := ⟨_, _, rfl, rfl, rfl⟩
theorem andIndX (p : Byte) : Statement (.andIndX p) := ⟨_, _, rfl, rfl, rfl⟩
theorem andIndY (p : Byte) : Statement (.andIndY p) := ⟨_, _, rfl, rfl, rfl⟩
theorem aslAcc : Statement .aslAcc := ⟨_, _, rfl, rfl, rfl⟩
theorem aslZp (z : Byte) : Statement (.aslZp z) := ⟨_, _, rfl, rfl, rfl⟩
theorem aslZpX (z : Byte) : Statement (.aslZpX z) := ⟨_, _, rfl, rfl, rfl⟩
theorem aslAbs (w : Word) : Statement (.aslAbs w) := ⟨_, _, rfl, rfl, rfl⟩
theorem aslAbsX (w : Word) : Statement (.aslAbsX w) := ⟨_, _, rfl, rfl, rfl⟩
theorem adcImm (v : Byte) : Statement (.adcImm v) := ⟨_, _, rfl, rfl, rfl⟩
theorem adcZp (z : Byte) : Statement (.adcZp z) := ⟨_, _, rfl, rfl, rfl⟩
theorem adcZpX (z : Byte) : Statement (.adcZpX z) := ⟨_, _, rfl, rfl, rfl⟩
theorem adcAbs (w : Word) : Statement (.adcAbs w) := ⟨_, _, rfl, rfl, rfl⟩
theorem adcAbsX (w : Word) : Statement (.adcAbsX w) := ⟨_, _, rfl, rfl, rfl⟩
theorem adcAbsY (w : Word) : Statement (.adcAbsY w) := ⟨_, _, rfl, rfl, rfl⟩
theorem adcIndX (p : Byte) : Statement (.adcIndX p) := ⟨_, _, rfl, rfl, rfl⟩
theorem adcIndY (p : Byte) : Statement (.adcIndY p) := ⟨_, _, rfl, rfl, rfl⟩
theorem cmpImm (v : Byte) : Statement (.cmpImm v) := ⟨_, _, rfl, rfl, rfl⟩
theorem cmpZp (z : Byte) : Statement (.cmpZp z) := ⟨_, _, rfl, rfl, rfl⟩
theorem cmpZpX (z : Byte) : Statement (.cmpZpX z) := ⟨_, _, rfl, rfl, rfl⟩
theorem cmpAbs (w : Word) : Statement (.cmpAbs w) := ⟨_, _, rfl, rfl, rfl⟩
theorem cmpAbsX (w : Word) : Statement (.cmpAbsX w) := ⟨_, _, rfl, rfl, rfl⟩
theorem cmpAbsY (w : Word) : Statement (.cmpAbsY w) := ⟨_, _, rfl, rfl, rfl⟩
theorem cmpIndX (p : Byte) : Statement (.cmpIndX p) := ⟨_, _, rfl, rfl, rfl⟩
theorem cmpIndY (p : Byte) : Statement (.cmpIndY p) := ⟨_, _, rfl, rfl, rfl⟩
theorem incZp (z : Byte) : Statement (.incZp z) := ⟨_, _, rfl, rfl, rfl⟩
theorem incZpX (z : Byte) : Statement (.incZpX z) := ⟨_, _, rfl, rfl, rfl⟩
theorem incAbs (w : Word) : Statement (.incAbs w) := ⟨_, _, rfl, rfl, rfl⟩
theorem incAbsX (w : Word) : Statement (.incAbsX w) := ⟨_, _, rfl, rfl, rfl⟩
theorem decZp (z : Byte) : Statement (.decZp z) := ⟨_, _, rfl, rfl, rfl⟩
theorem decZpX (z : Byte) : Statement (.decZpX z) := ⟨_, _, rfl, rfl, rfl⟩
theorem decAbs (w : Word) : Statement (.decAbs w) := ⟨_, _, rfl, rfl, rfl⟩
theorem decAbsX (w : Word) : Statement (.decAbsX w) := ⟨_, _, rfl, rfl, rfl⟩
theorem inx : Statement .inx := ⟨_, _, rfl, rfl, rfl⟩
theorem iny : Statement .iny := ⟨_, _, rfl, rfl, rfl⟩
theorem jmpAbs (w : Word) : Statement (.jmpAbs w) := ⟨_, _, rfl, rfl, rfl⟩
theorem jmpInd (w : Word) : Statement (.jmpInd w) := ⟨_, _, rfl, rfl, rfl⟩
theorem beq (d : Byte) : Statement (.beq d) := ⟨_, _, rfl, rfl, rfl⟩
theorem bne (d : Byte) : Statement (.bne d) := ⟨_, _, rfl, rfl, rfl⟩
theorem nop : Statement .nop := ⟨_, _, rfl, rfl, rfl⟩
theorem brk : Statement .brk := ⟨_, _, rfl, rfl, rfl⟩

end Sys2Proof.Laws.EncodedBytes
end

