-- ==== Sys2Proof/Tests/Slice0.lean ====
section
/-! SUPPORT. The model's own tests: well-formedness refused, every constructor's encoding, single steps of
95_test_vectors.md, the host's operations, and for every statement with hypotheses a concrete state meeting them. Expected
values are the spec's, not the model's. -/

open Sys2Proof Sys2Proof.Machine Sys2Proof.Claims

namespace Sys2Proof.Tests

/-! ## Helpers -/

/-- The reset state with an entry, a memory size, an instruction's bytes at the entry and some cells. -/
def load (entry : Word) (size : Nat) (bytes : List Byte) (cells : List (Nat × Byte)) : State :=
  placeBytes entry bytes (State.construct size (cells.foldl (fun m c => m.write c.1 c.2) []) entry 0)

/-- The state an outcome goes on in. -/
def nextOf : StepResult → Option State
  | .next t => some t
  | .fault _ => none
  | .refused _ => none

/-- Does one step lead to the expected state, with the expected accesses? -/
def stepsTo (s : State) (expected : State → State) (accesses : List Access) : Bool :=
  decide (nextOf (step s) = some (expected s)) && decide (stepAccesses s = accesses)

/-- Did an attempt complete? -/
def completes {α : Type} : Attempt α → Bool
  | .done _ _ => true
  | .raised _ => false

/-- The operand of `i` resolves to an address with a cell. -/
def inside (i : Instr) (s : State) : Bool :=
  match memFormOf i with
  | none => false
  | some m =>
    match resolve (start i s) m s with
    | .done ea t => decide (t.validAddr ea)
    | .raised _ => false

/-- The operand of `i` resolves to an address without a cell. -/
def outside (i : Instr) (s : State) : Bool :=
  match memFormOf i with
  | none => false
  | some m =>
    match resolve (start i s) m s with
    | .done ea t => decide (¬ t.validAddr ea)
    | .raised _ => false

/-- Resolving the operand of `i` raises. -/
def pointerFails (i : Instr) (s : State) : Bool :=
  match memFormOf i with
  | none => false
  | some m => !completes (resolve (start i s) m s)

/-! ## Well-formedness: what the check refuses, and the counts of 30_encoding.md R76, R79 -/

theorem test_store_immediate_is_refused : pairDefined .sta .imm = false := by decide
theorem test_ldx_zero_page_x_is_refused : pairDefined .ldx .zpX = false := by decide
theorem test_stx_absolute_y_is_refused : pairDefined .stx .absY = false := by decide
theorem test_inc_accumulator_is_refused : pairDefined .inc .acc = false := by decide
theorem test_branch_absolute_is_refused : pairDefined .bne .abs = false := by decide
theorem test_load_indirect_is_refused : pairDefined .lda .ind = false := by decide
theorem test_memory_of_no_cell_is_refused : memSizeAllowed 0 = false := by decide
theorem test_memory_past_sixteen_bits_is_refused : memSizeAllowed 65537 = false := by decide
theorem test_bounds_of_memory_size : memSizeAllowed 1 = true ∧ memSizeAllowed 65536 = true := by decide
theorem test_every_instruction_is_well_formed (i : Instr) : i.wellFormed = true := by cases i <;> rfl

/-! ## Decoding: every constructor, from the encodings of 30_encoding.md R76, R70, R73 -/

theorem test_decode_lda :
    decode [0xA1, 0x9C] = .instr (.ldaIndX 0x9C) [] ∧
    decode [0xA5, 0x9C] = .instr (.ldaZp 0x9C) [] ∧
    decode [0xA9, 0x9C] = .instr (.ldaImm 0x9C) [] ∧
    decode [0xAD, 0x34, 0x92] = .instr (.ldaAbs 0x9234) [] ∧
    decode [0xB1, 0x9C] = .instr (.ldaIndY 0x9C) [] ∧
    decode [0xB5, 0x9C] = .instr (.ldaZpX 0x9C) [] ∧
    decode [0xB9, 0x34, 0x92] = .instr (.ldaAbsY 0x9234) [] ∧
    decode [0xBD, 0x34, 0x92] = .instr (.ldaAbsX 0x9234) [] := by decide

theorem test_decode_ldx :
    decode [0xA2, 0x9C] = .instr (.ldxImm 0x9C) [] ∧
    decode [0xA6, 0x9C] = .instr (.ldxZp 0x9C) [] ∧
    decode [0xAE, 0x34, 0x92] = .instr (.ldxAbs 0x9234) [] ∧
    decode [0xB6, 0x9C] = .instr (.ldxZpY 0x9C) [] ∧
    decode [0xBE, 0x34, 0x92] = .instr (.ldxAbsY 0x9234) [] := by decide

theorem test_decode_sta :
    decode [0x81, 0x9C] = .instr (.staIndX 0x9C) [] ∧
    decode [0x85, 0x9C] = .instr (.staZp 0x9C) [] ∧
    decode [0x8D, 0x34, 0x92] = .instr (.staAbs 0x9234) [] ∧
    decode [0x91, 0x9C] = .instr (.staIndY 0x9C) [] ∧
    decode [0x95, 0x9C] = .instr (.staZpX 0x9C) [] ∧
    decode [0x99, 0x34, 0x92] = .instr (.staAbsY 0x9234) [] ∧
    decode [0x9D, 0x34, 0x92] = .instr (.staAbsX 0x9234) [] := by decide

theorem test_decode_stx :
    decode [0x86, 0x9C] = .instr (.stxZp 0x9C) [] ∧
    decode [0x8E, 0x34, 0x92] = .instr (.stxAbs 0x9234) [] ∧
    decode [0x96, 0x9C] = .instr (.stxZpY 0x9C) [] := by decide

theorem test_decode_ora :
    decode [0x01, 0x9C] = .instr (.oraIndX 0x9C) [] ∧
    decode [0x05, 0x9C] = .instr (.oraZp 0x9C) [] ∧
    decode [0x09, 0x9C] = .instr (.oraImm 0x9C) [] ∧
    decode [0x0D, 0x34, 0x92] = .instr (.oraAbs 0x9234) [] ∧
    decode [0x11, 0x9C] = .instr (.oraIndY 0x9C) [] ∧
    decode [0x15, 0x9C] = .instr (.oraZpX 0x9C) [] ∧
    decode [0x19, 0x34, 0x92] = .instr (.oraAbsY 0x9234) [] ∧
    decode [0x1D, 0x34, 0x92] = .instr (.oraAbsX 0x9234) [] := by decide

theorem test_decode_and :
    decode [0x21, 0x9C] = .instr (.andIndX 0x9C) [] ∧
    decode [0x25, 0x9C] = .instr (.andZp 0x9C) [] ∧
    decode [0x29, 0x9C] = .instr (.andImm 0x9C) [] ∧
    decode [0x2D, 0x34, 0x92] = .instr (.andAbs 0x9234) [] ∧
    decode [0x31, 0x9C] = .instr (.andIndY 0x9C) [] ∧
    decode [0x35, 0x9C] = .instr (.andZpX 0x9C) [] ∧
    decode [0x39, 0x34, 0x92] = .instr (.andAbsY 0x9234) [] ∧
    decode [0x3D, 0x34, 0x92] = .instr (.andAbsX 0x9234) [] := by decide

theorem test_decode_asl :
    decode [0x06, 0x9C] = .instr (.aslZp 0x9C) [] ∧
    decode [0x0A] = .instr .aslAcc [] ∧
    decode [0x0E, 0x34, 0x92] = .instr (.aslAbs 0x9234) [] ∧
    decode [0x16, 0x9C] = .instr (.aslZpX 0x9C) [] ∧
    decode [0x1E, 0x34, 0x92] = .instr (.aslAbsX 0x9234) [] := by decide

theorem test_decode_adc :
    decode [0x61, 0x9C] = .instr (.adcIndX 0x9C) [] ∧
    decode [0x65, 0x9C] = .instr (.adcZp 0x9C) [] ∧
    decode [0x69, 0x9C] = .instr (.adcImm 0x9C) [] ∧
    decode [0x6D, 0x34, 0x92] = .instr (.adcAbs 0x9234) [] ∧
    decode [0x71, 0x9C] = .instr (.adcIndY 0x9C) [] ∧
    decode [0x75, 0x9C] = .instr (.adcZpX 0x9C) [] ∧
    decode [0x79, 0x34, 0x92] = .instr (.adcAbsY 0x9234) [] ∧
    decode [0x7D, 0x34, 0x92] = .instr (.adcAbsX 0x9234) [] := by decide

theorem test_decode_cmp :
    decode [0xC1, 0x9C] = .instr (.cmpIndX 0x9C) [] ∧
    decode [0xC5, 0x9C] = .instr (.cmpZp 0x9C) [] ∧
    decode [0xC9, 0x9C] = .instr (.cmpImm 0x9C) [] ∧
    decode [0xCD, 0x34, 0x92] = .instr (.cmpAbs 0x9234) [] ∧
    decode [0xD1, 0x9C] = .instr (.cmpIndY 0x9C) [] ∧
    decode [0xD5, 0x9C] = .instr (.cmpZpX 0x9C) [] ∧
    decode [0xD9, 0x34, 0x92] = .instr (.cmpAbsY 0x9234) [] ∧
    decode [0xDD, 0x34, 0x92] = .instr (.cmpAbsX 0x9234) [] := by decide

theorem test_decode_inc :
    decode [0xE6, 0x9C] = .instr (.incZp 0x9C) [] ∧
    decode [0xEE, 0x34, 0x92] = .instr (.incAbs 0x9234) [] ∧
    decode [0xF6, 0x9C] = .instr (.incZpX 0x9C) [] ∧
    decode [0xFE, 0x34, 0x92] = .instr (.incAbsX 0x9234) [] := by decide

theorem test_decode_dec :
    decode [0xC6, 0x9C] = .instr (.decZp 0x9C) [] ∧
    decode [0xCE, 0x34, 0x92] = .instr (.decAbs 0x9234) [] ∧
    decode [0xD6, 0x9C] = .instr (.decZpX 0x9C) [] ∧
    decode [0xDE, 0x34, 0x92] = .instr (.decAbsX 0x9234) [] := by decide

theorem test_decode_transfers :
    decode [0xAA] = .instr .tax [] ∧
    decode [0x8A] = .instr .txa [] ∧
    decode [0xA8] = .instr .tay [] ∧
    decode [0x98] = .instr .tya [] := by decide

theorem test_decode_inx_iny :
    decode [0xE8] = .instr .inx [] ∧
    decode [0xC8] = .instr .iny [] := by decide

theorem test_decode_control :
    decode [0x4C, 0x34, 0x92] = .instr (.jmpAbs 0x9234) [] ∧
    decode [0x6C, 0x34, 0x92] = .instr (.jmpInd 0x9234) [] ∧
    decode [0xF0, 0x9C] = .instr (.beq 0x9C) [] ∧
    decode [0xD0, 0x9C] = .instr (.bne 0x9C) [] ∧
    decode [0xEA] = .instr .nop [] ∧
    decode [0x00] = .instr .brk [] := by decide

theorem test_decode_refusals :
    decode [0x02, 0x00, 0x00] = .unmapped 0x02 none ∧
    decode [0x48] = .unmapped 0x48 (some "PHA") ∧
    decode [0x20, 0x00, 0x06] = .unmapped 0x20 (some "JSR") ∧
    decode [0xE9, 0x01] = .unmapped 0xE9 (some "SBC") ∧
    decode [0xAD, 0x34] = .truncated 0xAD 1 ∧
    decode [] = .empty := by decide

/-- Bits 15..8 of a table number are the second byte, bits 23..16 the third; a word shorter than its instruction goes on
in zeros. -/
theorem test_decode_table_word :
    decodeTableWord 24 0x9234AD = some (.ldaAbs 0x9234) ∧
    decodeTableWord 16 0x05A9 = some (.ldaImm 0x05) ∧
    decodeTableWord 8 0x05A9 = some (.ldaImm 0x00) ∧
    decodeTableWord 8 0x02 = none := by decide

/-- From reset, the instruction placed is the one the next step runs. -/
theorem test_with_fetch_word :
    nextOf (step (State.reset.withFetchWord 16 0x05A9)) =
      some { State.reset.withFetchWord 16 0x05A9 with a := 0x05, pc := 0x0602 } ∧
    nextOf (step (State.reset.withFetchWord 8 0x00)) =
      some { State.reset with breakFlag := true, running := false, pc := 0x0601 } := by decide

/-! ## Single steps, from 95_test_vectors.md; the memory of a storing row is the spec's cells written out in address order -/

/-! Addressing modes (95_test_vectors.md 2.1). -/

theorem test_ldaZpX : stepsTo { load 0x0600 65535 [0xB5, 0xF0] [(0x0010, 0x99)] with x := 0x20 }
    (fun s => { s with a := 0x99, pc := 0x0602, negative := true })
    [.read 0x0600, .read 0x0601, .read 0x0010] = true := by decide

theorem test_ldxZpY : stepsTo { load 0x0600 65535 [0xB6, 0xFF] [(0x0001, 0x33)] with y := 0x02 }
    (fun s => { s with x := 0x33, pc := 0x0602 })
    [.read 0x0600, .read 0x0601, .read 0x0001] = true := by decide

theorem test_ldaAbs : stepsTo { load 0x0600 65535 [0xAD, 0x34, 0x12] [(0x1234, 0x00)] with a := 0x55 }
    (fun s => { s with a := 0x00, pc := 0x0603, zero := true })
    [.read 0x0600, .read 0x0601, .read 0x0602, .read 0x1234] = true := by decide

theorem test_ldaAbsX : stepsTo { load 0x0600 65535 [0xBD, 0xF0, 0xFF] [(0x0010, 0x42)] with x := 0x20 }
    (fun s => { s with a := 0x42, pc := 0x0603 })
    [.read 0x0600, .read 0x0601, .read 0x0602, .read 0x0010] = true := by decide

theorem test_ldaAbsY : stepsTo { load 0x0600 65535 [0xB9, 0xFF, 0x02] [(0x0300, 0x80)] with y := 0x01 }
    (fun s => { s with a := 0x80, pc := 0x0603, negative := true })
    [.read 0x0600, .read 0x0601, .read 0x0602, .read 0x0300] = true := by decide

theorem test_ldaIndX : stepsTo { load 0x0600 65535 [0xA1, 0x20] [(0x0024, 0x00), (0x0025, 0x03), (0x0300, 0x5A)] with x := 0x04 }
    (fun s => { s with a := 0x5A, pc := 0x0602 })
    [.read 0x0600, .read 0x0601, .read 0x0024, .read 0x0025, .read 0x0300] = true := by decide

theorem test_ldaIndX_2 : stepsTo (load 0x0600 65535 [0xA1, 0xFF] [(0x00FF, 0x34), (0x0000, 0x12), (0x1234, 0x77)])
    (fun s => { s with a := 0x77, pc := 0x0602 })
    [.read 0x0600, .read 0x0601, .read 0x00FF, .read 0x0000, .read 0x1234] = true := by decide

theorem test_ldaIndY : stepsTo { load 0x0600 65535 [0xB1, 0xFF] [(0x00FF, 0xFF), (0x0000, 0xFF)] with y := 0x01 }
    (fun s => { s with a := 0xFF, pc := 0x0602, negative := true })
    [.read 0x0600, .read 0x0601, .read 0x00FF, .read 0x0000, .read 0x0000] = true := by decide

theorem test_ldxImm : stepsTo { load 0x0600 65535 [0xA2, 0x00] [] with x := 0x07 }
    (fun s => { s with x := 0x00, pc := 0x0602, zero := true })
    [.read 0x0600, .read 0x0601] = true := by decide

theorem test_ldxAbsY : stepsTo { load 0x0600 65535 [0xBE, 0x00, 0x02] [(0x0205, 0x81)] with y := 0x05 }
    (fun s => { s with x := 0x81, pc := 0x0603, negative := true })
    [.read 0x0600, .read 0x0601, .read 0x0602, .read 0x0205] = true := by decide

theorem test_ldxAbs : stepsTo (load 0x0600 65535 [0xAE, 0x00, 0x03] [(0x0300, 0x01)])
    (fun s => { s with x := 0x01, pc := 0x0603 })
    [.read 0x0600, .read 0x0601, .read 0x0602, .read 0x0300] = true := by decide

theorem test_ldxZp : stepsTo (load 0x0600 65535 [0xA6, 0x10] [(0x0010, 0xFF)])
    (fun s => { s with x := 0xFF, pc := 0x0602, negative := true })
    [.read 0x0600, .read 0x0601, .read 0x0010] = true := by decide

/-! Stores (95_test_vectors.md 2.2). -/

theorem test_staZp : stepsTo { load 0x0600 65535 [0x85, 0x10] [] with a := 0x41, zero := true, negative := true }
    (fun s => { s with pc := 0x0602, zero := true, negative := true, mem := [(0x0010, 0x41), (0x0600, 0x85), (0x0601, 0x10)] })
    [.read 0x0600, .read 0x0601, .write 0x0010 0x41] = true := by decide

theorem test_staZp_2 : stepsTo { load 0x0600 65535 [0x85, 0xFE] [] with a := 0x55 }
    (fun s => { s with pc := 0x0602, mem := [(0x00FE, 0x55), (0x0600, 0x85), (0x0601, 0xFE)] })
    [.read 0x0600, .read 0x0601, .write 0x00FE 0x55] = true := by decide

theorem test_staZpX : stepsTo { load 0x0600 65535 [0x95, 0xF0] [] with a := 0x41, x := 0x20 }
    (fun s => { s with pc := 0x0602, mem := [(0x0010, 0x41), (0x0600, 0x95), (0x0601, 0xF0)] })
    [.read 0x0600, .read 0x0601, .write 0x0010 0x41] = true := by decide

theorem test_staAbsX : stepsTo { load 0x0600 65535 [0x9D, 0x00, 0x02] [] with a := 0x01, x := 0x05 }
    (fun s => { s with pc := 0x0603, mem := [(0x0205, 0x01), (0x0600, 0x9D), (0x0602, 0x02)] })
    [.read 0x0600, .read 0x0601, .read 0x0602, .write 0x0205 0x01] = true := by decide

theorem test_staAbsY : stepsTo { load 0x0600 65535 [0x99, 0xF0, 0xFF] [] with a := 0x02, y := 0x20 }
    (fun s => { s with pc := 0x0603, mem := [(0x0010, 0x02), (0x0600, 0x99), (0x0601, 0xF0), (0x0602, 0xFF)] })
    [.read 0x0600, .read 0x0601, .read 0x0602, .write 0x0010 0x02] = true := by decide

theorem test_staIndX : stepsTo { load 0x0600 65535 [0x81, 0x20] [(0x0024, 0x00), (0x0025, 0x03)] with a := 0x03, x := 0x04 }
    (fun s => { s with pc := 0x0602, mem := [(0x0025, 0x03), (0x0300, 0x03), (0x0600, 0x81), (0x0601, 0x20)] })
    [.read 0x0600, .read 0x0601, .read 0x0024, .read 0x0025, .write 0x0300 0x03] = true := by decide

theorem test_staIndY : stepsTo { load 0x0600 65535 [0x91, 0x20] [(0x0020, 0x00), (0x0021, 0x03)] with a := 0xAA, y := 0x05 }
    (fun s => { s with pc := 0x0602, mem := [(0x0021, 0x03), (0x0305, 0xAA), (0x0600, 0x91), (0x0601, 0x20)] })
    [.read 0x0600, .read 0x0601, .read 0x0020, .read 0x0021, .write 0x0305 0xAA] = true := by decide

theorem test_stxZp : stepsTo { load 0x0600 65535 [0x86, 0x10] [] with x := 0x07 }
    (fun s => { s with pc := 0x0602, mem := [(0x0010, 0x07), (0x0600, 0x86), (0x0601, 0x10)] })
    [.read 0x0600, .read 0x0601, .write 0x0010 0x07] = true := by decide

theorem test_stxZpY : stepsTo { load 0x0600 65535 [0x96, 0xF0] [] with x := 0x07, y := 0x20 }
    (fun s => { s with pc := 0x0602, mem := [(0x0010, 0x07), (0x0600, 0x96), (0x0601, 0xF0)] })
    [.read 0x0600, .read 0x0601, .write 0x0010 0x07] = true := by decide

theorem test_stxAbs : stepsTo { load 0x0600 65535 [0x8E, 0x00, 0x02] [] with x := 0xFF }
    (fun s => { s with pc := 0x0603, mem := [(0x0200, 0xFF), (0x0600, 0x8E), (0x0602, 0x02)] })
    [.read 0x0600, .read 0x0601, .read 0x0602, .write 0x0200 0xFF] = true := by decide

theorem test_staAbs : stepsTo { load 0x0600 65535 [0x8D, 0x01, 0x06] [] with a := 0xEA }
    (fun s => { s with pc := 0x0603, mem := [(0x0600, 0x8D), (0x0601, 0xEA), (0x0602, 0x06)] })
    [.read 0x0600, .read 0x0601, .read 0x0602, .write 0x0601 0xEA] = true := by decide

/-! Transfers (95_test_vectors.md 2.3). -/

theorem test_tax : stepsTo { load 0x0600 65535 [0xAA] [] with a := 0x00, x := 0x55 }
    (fun s => { s with x := 0x00, pc := 0x0601, zero := true })
    [.read 0x0600] = true := by decide

theorem test_tax_2 : stepsTo { load 0x0600 65535 [0xAA] [] with a := 0x80 }
    (fun s => { s with x := 0x80, pc := 0x0601, negative := true })
    [.read 0x0600] = true := by decide

theorem test_txa : stepsTo { load 0x0600 65535 [0x8A] [] with x := 0x80 }
    (fun s => { s with a := 0x80, pc := 0x0601, negative := true })
    [.read 0x0600] = true := by decide

theorem test_txa_2 : stepsTo { load 0x0600 65535 [0x8A] [] with x := 0x00, a := 0x55 }
    (fun s => { s with a := 0x00, pc := 0x0601, zero := true })
    [.read 0x0600] = true := by decide

theorem test_tay : stepsTo { load 0x0600 65535 [0xA8] [] with a := 0x05 }
    (fun s => { s with y := 0x05, pc := 0x0601 })
    [.read 0x0600] = true := by decide

theorem test_tya : stepsTo { load 0x0600 65535 [0x98] [] with y := 0xFF }
    (fun s => { s with a := 0xFF, pc := 0x0601, negative := true })
    [.read 0x0600] = true := by decide

theorem test_tya_2 : stepsTo { load 0x0600 65535 [0x98] [] with y := 0x00, a := 0x01 }
    (fun s => { s with a := 0x00, pc := 0x0601, zero := true })
    [.read 0x0600] = true := by decide

/-! Logic and shift (95_test_vectors.md 2.4). -/

theorem test_oraImm : stepsTo { load 0x0600 65535 [0x09, 0x80] [] with a := 0x01 }
    (fun s => { s with a := 0x81, pc := 0x0602, negative := true })
    [.read 0x0600, .read 0x0601] = true := by decide

theorem test_oraImm_2 : stepsTo { load 0x0600 65535 [0x09, 0x00] [] with a := 0x00, negative := true }
    (fun s => { s with pc := 0x0602, zero := true, negative := false })
    [.read 0x0600, .read 0x0601] = true := by decide

theorem test_oraZp : stepsTo { load 0x0600 65535 [0x05, 0x10] [(0x0010, 0xF0)] with a := 0x0F }
    (fun s => { s with a := 0xFF, pc := 0x0602, negative := true })
    [.read 0x0600, .read 0x0601, .read 0x0010] = true := by decide

theorem test_oraIndY : stepsTo { load 0x0600 65535 [0x11, 0x20] [(0x0020, 0xFF), (0x0021, 0x02), (0x0300, 0x02)] with a := 0x01, y := 0x01 }
    (fun s => { s with a := 0x03, pc := 0x0602 })
    [.read 0x0600, .read 0x0601, .read 0x0020, .read 0x0021, .read 0x0300] = true := by decide

theorem test_andImm : stepsTo { load 0x0600 65535 [0x29, 0x0F] [] with a := 0xF0 }
    (fun s => { s with a := 0x00, pc := 0x0602, zero := true })
    [.read 0x0600, .read 0x0601] = true := by decide

theorem test_andImm_2 : stepsTo { load 0x0600 65535 [0x29, 0xFF] [] with a := 0x80 }
    (fun s => { s with pc := 0x0602, negative := true })
    [.read 0x0600, .read 0x0601] = true := by decide

theorem test_andAbs : stepsTo { load 0x0600 65535 [0x2D, 0x00, 0x03] [(0x0300, 0x7F)] with a := 0xFF }
    (fun s => { s with a := 0x7F, pc := 0x0603 })
    [.read 0x0600, .read 0x0601, .read 0x0602, .read 0x0300] = true := by decide

theorem test_andZpX : stepsTo { load 0x0600 65535 [0x35, 0x10] [(0x0011, 0x0A)] with a := 0xAA, x := 0x01 }
    (fun s => { s with a := 0x0A, pc := 0x0602 })
    [.read 0x0600, .read 0x0601, .read 0x0011] = true := by decide

theorem test_aslAcc : stepsTo { load 0x0600 65535 [0x0A] [] with a := 0xAB }
    (fun s => { s with a := 0x56, pc := 0x0601, carry := true })
    [.read 0x0600] = true := by decide

theorem test_aslAcc_2 : stepsTo { load 0x0600 65535 [0x0A] [] with a := 0x40, carry := true }
    (fun s => { s with a := 0x80, pc := 0x0601, carry := false, negative := true })
    [.read 0x0600] = true := by decide

theorem test_aslZp : stepsTo { load 0x0600 65535 [0x06, 0x10] [(0x0010, 0x81)] with a := 0x01 }
    (fun s => { s with a := 0x01, pc := 0x0602, carry := true, mem := [(0x0010, 0x02), (0x0600, 0x06), (0x0601, 0x10)] })
    [.read 0x0600, .read 0x0601, .read 0x0010, .write 0x0010 0x02] = true := by decide

theorem test_aslAbsX : stepsTo { load 0x0600 65535 [0x1E, 0x00, 0x02] [(0x0201, 0x40)] with x := 0x01 }
    (fun s => { s with pc := 0x0603, negative := true, mem := [(0x0201, 0x80), (0x0600, 0x1E), (0x0602, 0x02)] })
    [.read 0x0600, .read 0x0601, .read 0x0602, .read 0x0201, .write 0x0201 0x80] = true := by decide

theorem test_aslZpX : stepsTo { load 0x0600 65535 [0x16, 0xF0] [(0x0010, 0x80)] with x := 0x20 }
    (fun s => { s with pc := 0x0602, carry := true, zero := true, mem := [(0x0600, 0x16), (0x0601, 0xF0)] })
    [.read 0x0600, .read 0x0601, .read 0x0010, .write 0x0010 0x00] = true := by decide

theorem test_aslAbs : stepsTo { load 0x0600 65535 [0x0E, 0x00, 0x03] [(0x0300, 0x01)] with carry := true }
    (fun s => { s with pc := 0x0603, carry := false, mem := [(0x0300, 0x02), (0x0600, 0x0E), (0x0602, 0x03)] })
    [.read 0x0600, .read 0x0601, .read 0x0602, .read 0x0300, .write 0x0300 0x02] = true := by decide

/-! ADC and CMP (95_test_vectors.md 2.5). -/

theorem test_adcImm : stepsTo { load 0x0600 65535 [0x69, 0x01] [] with a := 0x7F }
    (fun s => { s with a := 0x80, pc := 0x0602, overflow := true, negative := true })
    [.read 0x0600, .read 0x0601] = true := by decide

theorem test_adcImm_2 : stepsTo { load 0x0600 65535 [0x69, 0x80] [] with a := 0x80 }
    (fun s => { s with a := 0x00, pc := 0x0602, carry := true, zero := true, overflow := true })
    [.read 0x0600, .read 0x0601] = true := by decide

theorem test_adcZp : stepsTo { load 0x0600 65535 [0x65, 0x10] [(0x0010, 0x01)] with a := 0x01, decimalMode := true }
    (fun s => { s with a := 0x02, pc := 0x0602, decimalMode := true })
    [.read 0x0600, .read 0x0601, .read 0x0010] = true := by decide

theorem test_adcAbsX : stepsTo { load 0x0600 65535 [0x7D, 0x00, 0x02] [(0x0202, 0x22)] with a := 0x20, x := 0x02, carry := true }
    (fun s => { s with a := 0x43, pc := 0x0603, carry := false })
    [.read 0x0600, .read 0x0601, .read 0x0602, .read 0x0202] = true := by decide

theorem test_adcIndY : stepsTo { load 0x0600 65535 [0x71, 0x20] [(0x0020, 0xFF), (0x0021, 0x02), (0x0300, 0xFE)] with a := 0x01, y := 0x01 }
    (fun s => { s with a := 0xFF, pc := 0x0602, negative := true })
    [.read 0x0600, .read 0x0601, .read 0x0020, .read 0x0021, .read 0x0300] = true := by decide

theorem test_cmpImm : stepsTo { load 0x0600 65535 [0xC9, 0xAB] [] with a := 0xAB }
    (fun s => { s with pc := 0x0602, carry := true, zero := true })
    [.read 0x0600, .read 0x0601] = true := by decide

theorem test_cmpImm_2 : stepsTo { load 0x0600 65535 [0xC9, 0x01] [] with a := 0xFF }
    (fun s => { s with pc := 0x0602, carry := true, negative := true })
    [.read 0x0600, .read 0x0601] = true := by decide

theorem test_cmpZp : stepsTo { load 0x0600 65535 [0xC5, 0x10] [(0x0010, 0x20)] with a := 0x10 }
    (fun s => { s with pc := 0x0602, negative := true })
    [.read 0x0600, .read 0x0601, .read 0x0010] = true := by decide

theorem test_cmpAbsX : stepsTo { load 0x0600 65535 [0xDD, 0x00, 0x02] [(0x0201, 0x05)] with a := 0x05, x := 0x01 }
    (fun s => { s with pc := 0x0603, carry := true, zero := true })
    [.read 0x0600, .read 0x0601, .read 0x0602, .read 0x0201] = true := by decide

theorem test_cmpIndX : stepsTo { load 0x0600 65535 [0xC1, 0x20] [(0x0020, 0x00), (0x0021, 0x03), (0x0300, 0x10)] with a := 0x90, x := 0x00 }
    (fun s => { s with pc := 0x0602, carry := true, negative := true })
    [.read 0x0600, .read 0x0601, .read 0x0020, .read 0x0021, .read 0x0300] = true := by decide

/-! INC, DEC, INX, INY (95_test_vectors.md 2.6). -/

theorem test_incZp : stepsTo { load 0x0600 65535 [0xE6, 0x10] [(0x0010, 0xFF)] with carry := true }
    (fun s => { s with pc := 0x0602, carry := true, zero := true, mem := [(0x0600, 0xE6), (0x0601, 0x10)] })
    [.read 0x0600, .read 0x0601, .read 0x0010, .write 0x0010 0x00] = true := by decide

theorem test_incAbs : stepsTo (load 0x0600 65535 [0xEE, 0x05, 0x03] [(0x0305, 0xAA)])
    (fun s => { s with pc := 0x0603, negative := true, mem := [(0x0305, 0xAB), (0x0600, 0xEE), (0x0601, 0x05), (0x0602, 0x03)] })
    [.read 0x0600, .read 0x0601, .read 0x0602, .read 0x0305, .write 0x0305 0xAB] = true := by decide

theorem test_incAbsX : stepsTo { load 0x0600 65535 [0xFE, 0x00, 0x02] [(0x0201, 0xFF)] with x := 0x01 }
    (fun s => { s with pc := 0x0603, zero := true, mem := [(0x0600, 0xFE), (0x0602, 0x02)] })
    [.read 0x0600, .read 0x0601, .read 0x0602, .read 0x0201, .write 0x0201 0x00] = true := by decide

theorem test_incZpX : stepsTo { load 0x0600 65535 [0xF6, 0xF0] [(0x0010, 0x00)] with x := 0x20 }
    (fun s => { s with pc := 0x0602, mem := [(0x0010, 0x01), (0x0600, 0xF6), (0x0601, 0xF0)] })
    [.read 0x0600, .read 0x0601, .read 0x0010, .write 0x0010 0x01] = true := by decide

theorem test_decZp : stepsTo (load 0x0600 65535 [0xC6, 0x10] [(0x0010, 0x00)])
    (fun s => { s with pc := 0x0602, negative := true, mem := [(0x0010, 0xFF), (0x0600, 0xC6), (0x0601, 0x10)] })
    [.read 0x0600, .read 0x0601, .read 0x0010, .write 0x0010 0xFF] = true := by decide

theorem test_decZp_2 : stepsTo (load 0x0600 65535 [0xC6, 0x10] [(0x0010, 0x01)])
    (fun s => { s with pc := 0x0602, zero := true, mem := [(0x0600, 0xC6), (0x0601, 0x10)] })
    [.read 0x0600, .read 0x0601, .read 0x0010, .write 0x0010 0x00] = true := by decide

theorem test_decAbs : stepsTo (load 0x0600 65535 [0xCE, 0x00, 0x03] [(0x0300, 0x80)])
    (fun s => { s with pc := 0x0603, mem := [(0x0300, 0x7F), (0x0600, 0xCE), (0x0602, 0x03)] })
    [.read 0x0600, .read 0x0601, .read 0x0602, .read 0x0300, .write 0x0300 0x7F] = true := by decide

theorem test_decAbsX : stepsTo { load 0x0600 65535 [0xDE, 0x00, 0x02] [(0x0201, 0x02)] with x := 0x01 }
    (fun s => { s with pc := 0x0603, mem := [(0x0201, 0x01), (0x0600, 0xDE), (0x0602, 0x02)] })
    [.read 0x0600, .read 0x0601, .read 0x0602, .read 0x0201, .write 0x0201 0x01] = true := by decide

theorem test_decZpX : stepsTo { load 0x0600 65535 [0xD6, 0xF0] [(0x0010, 0x10)] with x := 0x20 }
    (fun s => { s with pc := 0x0602, mem := [(0x0010, 0x0F), (0x0600, 0xD6), (0x0601, 0xF0)] })
    [.read 0x0600, .read 0x0601, .read 0x0010, .write 0x0010 0x0F] = true := by decide

theorem test_inx : stepsTo { load 0x0600 65535 [0xE8] [] with x := 0xFF }
    (fun s => { s with x := 0x00, pc := 0x0601, zero := true })
    [.read 0x0600] = true := by decide

theorem test_inx_2 : stepsTo { load 0x0600 65535 [0xE8] [] with x := 0x7F }
    (fun s => { s with x := 0x80, pc := 0x0601, negative := true })
    [.read 0x0600] = true := by decide

theorem test_iny : stepsTo { load 0x0600 65535 [0xC8] [] with y := 0xFF }
    (fun s => { s with y := 0x00, pc := 0x0601, zero := true })
    [.read 0x0600] = true := by decide

theorem test_iny_2 : stepsTo { load 0x0600 65535 [0xC8] [] with y := 0x04 }
    (fun s => { s with y := 0x05, pc := 0x0601 })
    [.read 0x0600] = true := by decide

/-! JMP, BEQ, BNE, NOP, BRK (95_test_vectors.md 2.7). -/

theorem test_jmpAbs : stepsTo (load 0x1234 65535 [0x4C, 0x00, 0x06] [])
    (fun s => { s with pc := 0x0600 })
    [.read 0x1234, .read 0x1235, .read 0x1236] = true := by decide

theorem test_jmpAbs_2 : stepsTo (load 0x0600 65535 [0x4C, 0xFF, 0xFF] [])
    (fun s => { s with pc := 0xFFFF })
    [.read 0x0600, .read 0x0601, .read 0x0602] = true := by decide

theorem test_jmpInd : stepsTo (load 0x0600 65535 [0x6C, 0xFF, 0x02] [(0x02FF, 0x10), (0x0300, 0x06), (0x0200, 0x99)])
    (fun s => { s with pc := 0x0610 })
    [.read 0x0600, .read 0x0601, .read 0x0602, .read 0x02FF, .read 0x0300] = true := by decide

theorem test_beq : stepsTo { load 0x0600 65535 [0xF0, 0x03] [] with zero := true }
    (fun s => { s with pc := 0x0605 })
    [.read 0x0600, .read 0x0601] = true := by decide

theorem test_beq_2 : stepsTo { load 0xFFF0 65535 [0xF0, 0x7F] [] with zero := true }
    (fun s => { s with pc := 0x0071 })
    [.read 0xFFF0, .read 0xFFF1] = true := by decide

theorem test_bne : stepsTo { load 0x0606 65535 [0xD0, 0xFA] [] with zero := true }
    (fun s => { s with pc := 0x0608 })
    [.read 0x0606, .read 0x0607] = true := by decide

theorem test_bne_2 : stepsTo { load 0x0000 65535 [0xD0, 0x80] [] with zero := false }
    (fun s => { s with pc := 0xFF82 })
    [.read 0x0000, .read 0x0001] = true := by decide

theorem test_nop : stepsTo { load 0x0600 65535 [0xEA] [] with a := 0x12, carry := true, zero := true }
    (fun s => { s with pc := 0x0601 })
    [.read 0x0600] = true := by decide

theorem test_brk : stepsTo { load 0x0600 65535 [0x00] [] with carry := true, zero := true, negative := true, overflow := true }
    (fun s => { s with pc := 0x0601, breakFlag := true, running := false })
    [.read 0x0600] = true := by decide

/-! Faults and the ends of memory (95_test_vectors.md 2.8). -/

theorem test_ldaZp : stepsTo (load 0x0010 128 [0xA5, 0xFE] [])
    (fun s => { s with fault := some (.outOfBounds 0x00FE 0x0010), pc := 0x0012, running := false })
    [.read 0x0010, .read 0x0011] = true := by decide

theorem test_ldaAbs_2 : stepsTo { load 0x0600 65535 [0xAD, 0xFF, 0xFF] [] with a := 0x07, zero := true }
    (fun s => { s with fault := some (.outOfBounds 0xFFFF 0x0600), a := 0x07, pc := 0x0603, zero := true, running := false })
    [.read 0x0600, .read 0x0601, .read 0x0602] = true := by decide

theorem test_ldaAbsX_2 : stepsTo { load 0x0600 65535 [0xBD, 0xFF, 0xFF] [(0x0000, 0x09)] with x := 0x01 }
    (fun s => { s with a := 0x09, pc := 0x0603 })
    [.read 0x0600, .read 0x0601, .read 0x0602, .read 0x0000] = true := by decide

theorem test_staIndY_2 : stepsTo { load 0x0600 65535 [0x91, 0x20] [(0x0020, 0xFE), (0x0021, 0xFF)] with a := 0x01, y := 0x01 }
    (fun s => { s with fault := some (.outOfBounds 0xFFFF 0x0600), pc := 0x0602, running := false })
    [.read 0x0600, .read 0x0601, .read 0x0020, .read 0x0021] = true := by decide

theorem test_staAbs_2 : stepsTo { load 0x0600 65535 [0x8D, 0xFF, 0xFF] [] with a := 0x07 }
    (fun s => { s with fault := some (.outOfBounds 0xFFFF 0x0600), pc := 0x0603, running := false })
    [.read 0x0600, .read 0x0601, .read 0x0602] = true := by decide

theorem test_incAbs_2 : stepsTo (load 0x0600 65535 [0xEE, 0xFF, 0xFF] [])
    (fun s => { s with fault := some (.outOfBounds 0xFFFF 0x0600), pc := 0x0603, running := false })
    [.read 0x0600, .read 0x0601, .read 0x0602] = true := by decide

theorem test_jmpInd_2 : stepsTo (load 0x0600 65535 [0x6C, 0xFE, 0xFF] [(0xFFFE, 0x34)])
    (fun s => { s with fault := some (.outOfBounds 0xFFFF 0x0600), pc := 0x0603, running := false })
    [.read 0x0600, .read 0x0601, .read 0x0602, .read 0xFFFE] = true := by decide

theorem test_unmapped_02 : stepsTo (load 0x0600 65535 [0x02] [])
    (fun s => { s with fault := some (.invalidOpcode 0x02 0x0600), pc := 0x0601, running := false })
    [.read 0x0600] = true := by decide

theorem test_unmapped_FF : stepsTo (load 0x0600 65535 [0xFF] [])
    (fun s => { s with fault := some (.invalidOpcode 0xFF 0x0600), pc := 0x0601, running := false })
    [.read 0x0600] = true := by decide

theorem test_unmapped_20 : stepsTo (load 0x0600 65535 [0x20, 0x00, 0x06] [])
    (fun s => { s with fault := some (.invalidOpcode 0x20 0x0600), pc := 0x0601, running := false })
    [.read 0x0600] = true := by decide

theorem test_unmapped_48 : stepsTo (load 0x0600 65535 [0x48] [])
    (fun s => { s with fault := some (.invalidOpcode 0x48 0x0600), pc := 0x0601, running := false })
    [.read 0x0600] = true := by decide

theorem test_unmapped_E9 : stepsTo { load 0x0600 65535 [0xE9, 0x01] [] with a := 0x05 }
    (fun s => { s with fault := some (.invalidOpcode 0xE9 0x0600), pc := 0x0601, running := false })
    [.read 0x0600] = true := by decide

theorem test_fetch_at_no_cell : stepsTo (load 0xFFFF 65535 [] [])
    (fun s => { s with fault := some (.outOfBounds 0xFFFF 0xFFFF), pc := 0xFFFF, running := false })
    [] = true := by decide

theorem test_ldaImm : stepsTo (load 0xFFFE 65535 [0xA9, 0x05] [])
    (fun s => { s with fault := some (.outOfBounds 0xFFFF 0xFFFE), pc := 0xFFFF, running := false })
    [.read 0xFFFE] = true := by decide

theorem test_ldaImm_2 : stepsTo (load 0xFFFF 65536 [0xA9, 0x05] [])
    (fun s => { s with a := 0x05, pc := 0x0001 })
    [.read 0xFFFF, .read 0x0000] = true := by decide

/-! The trap address: the byte read is a draw, whatever is stored there (95_test_vectors.md 2.1, 2.4, 2.6). -/

theorem test_ldaZp_draw :
    step (load 0x0600 65535 [0xA5, 0xFE] [(0x00FE, 0x11)]) =
      .next { load 0x0600 65535 [0xA5, 0xFE] [(0x00FE, 0x11)] with
        a := Config.draw 0, zero := Config.draw 0 == 0, negative := (Config.draw 0).getLsbD 7, pc := 0x0602, draws := 1 } := by
  rfl

theorem test_incZp_draw :
    step (load 0x0600 65535 [0xE6, 0xFE] []) =
      .next { load 0x0600 65535 [0xE6, 0xFE] [] with
        mem := Memory.write (load 0x0600 65535 [0xE6, 0xFE] []).mem 0xFE (Config.draw 0 + 1), zero := Config.draw 0 + 1 == 0,
        negative := (Config.draw 0 + 1).getLsbD 7, pc := 0x0602, draws := 1 } := by
  rfl

theorem test_ldaIndY_draw :
    resolve 0x0600 (.indY 0xFE) (load 0x0600 65535 [0xB1, 0xFE] [(0x00FF, 0x03)]) =
      .done (mk16 0x03 (Config.draw 0) + 0) { load 0x0600 65535 [0xB1, 0xFE] [(0x00FF, 0x03)] with draws := 1 } := by
  rfl

/-! ## The host's operations (95_test_vectors.md 2.9 and S2) -/

theorem test_write_bulk_stops :
    writeBulk 65535 [] 0xFFFD [0x01, 0x02, 0x03] = ⟨[(0xFFFD, 0x01), (0xFFFE, 0x02)], some 0xFFFF⟩ := by decide
theorem test_fill_is_inclusive :
    fill 65535 [] 0x0200 3 0x07 = ⟨[(0x0200, 0x07), (0x0201, 0x07), (0x0202, 0x07), (0x0203, 0x07)], none⟩ := by decide
theorem test_fill_stops : fill 65535 [] 0xFFFE 1 0x07 = ⟨[(0xFFFE, 0x07)], some 0xFFFF⟩ := by decide
theorem test_host_bounds :
    hostRead 65535 [] 0x5A 65535 = .outOfBounds 65535 ∧ hostWrite 16 [] 16 0 = ⟨[], some 16⟩ ∧
    hostRead 65535 [] 0x5A (-1) = .outOfBounds (-1) ∧ hostRead 65535 [] 0x5A 65534 = .byte 0 ∧
    hostRead 65535 [(0xFE, 0x99)] 0x5A 0xFE = .byte 0x5A := by decide
theorem test_halted_step :
    nextOf (step { load 0x0600 65535 [0xE8] [] with running := false }) =
      some { load 0x0600 65535 [0xE8] [] with running := false } ∧
    stepAccesses { load 0x0600 65535 [0xE8] [] with running := false } = [] := by decide
theorem test_step_report :
    (nextOf (step (load 0x0600 65535 [0x02] []))).map (stepReport (load 0x0600 65535 [0x02] [])) =
      some (some (.invalidOpcode 0x02 0x0600)) ∧
    stepReport { State.reset with running := false } { State.reset with running := false } = none := by decide

/-! ## A witness for the hypotheses of every statement that has some, at a boundary for each clause -/

theorem witness_BootMeetsInvariant :
    memSizeAllowed 1 = true ∧ memSizeAllowed 65535 = true ∧ memSizeAllowed 65536 = true := by decide

theorem witness_MemReadChecksBoundsThenTrap :
    State.reset.memSize ≤ (0xFFFF : Word).toNat ∧ (0xFFFE : Word).toNat < State.reset.memSize ∧ (0xFFFE : Word) ≠ 0x00FE ∧
    (0x00FE : Word).toNat < (load 0x0010 0xFF [] []).memSize ∧ (load 0x0010 0x80 [] []).memSize ≤ (0x00FE : Word).toNat := by
  decide

theorem witness_MemWriteStoresOneByte :
    (load 0x0600 65535 [0xEA] []).mem.wf ∧ (load 0x0600 65535 [0xEA] []).memSize ≤ (0xFFFF : Word).toNat ∧
    (0xFFFE : Word).toNat < (load 0x0600 65535 [0xEA] []).memSize ∧
    (0x00FE : Word).toNat < (load 0x0600 65535 [0xEA] []).memSize := by decide

theorem witness_ValidityIsTheMemorySize :
    State.reset.memSize = 65535 ∧ (load 0x0600 65536 [0xEA] []).memSize = 65536 ∧
    (load 0x0600 65536 [0xEA] []).fault = none ∧ (nextOf (step (load 0x0600 65536 [0xEA] []))).isSome = true := by decide

theorem witness_HostAccessIsBoundsChecked :
    Memory.wf [(0x0600, 0xEA)] ∧ (-1 : Int) < 0 ∧ ((65535 : Nat) : Int) ≤ 65535 ∧ (0 : Int) < (65535 : Nat) ∧
    (65534 : Int) < (65535 : Nat) := by decide

theorem witness_WriteBulkStopsAtFirstFailure :
    Memory.wf [(0x0600, 0xEA)] ∧ (writeBulk 65535 [(0x0600, 0xEA)] 0xFFFE [0x01, 0x02]).failed = some 0xFFFF ∧
    (writeBulk 65535 [(0x0600, 0xEA)] (-1) [0x01]).failed = some (-1) ∧
    (writeBulk 65535 [(0x0600, 0xEA)] 0xFFFD [0x01, 0x02]).failed = none := by decide

theorem witness_FillWritesCountPlusOneCells :
    Memory.wf [(0x0600, 0xEA)] ∧ (0 : Int) ≤ 0 ∧ (0 : Int) + (65534 : Nat) < (65535 : Nat) ∧
    (0xFFFE : Int) + (0 : Nat) < (65535 : Nat) := by decide

theorem witness_TableHoldsEachPairOnce :
    (table 0xA9).isSome = true ∧ pairDefined .lda .imm = true ∧ (table 0xA9).map Entry.pair = some (.lda, .imm) := by decide

theorem witness_MemoryFormsAreTheOperandBytes :
    memFormOf (.ldaZp 0xFF) = some (.zp 0xFF) ∧ memFormOf (.ldaZpX 0xFF) = some (.zpX 0xFF) ∧
    memFormOf (.ldxZpY 0xFF) = some (.zpY 0xFF) ∧ memFormOf (.ldaIndX 0xFF) = some (.indX 0xFF) ∧
    memFormOf (.ldaIndY 0xFF) = some (.indY 0xFF) ∧ memFormOf (.ldaAbs 0xFFFF) = some (.abs 0xFFFF) ∧
    memFormOf (.ldaAbsX 0xFFFF) = some (.absX 0xFFFF) ∧ memFormOf (.ldaAbsY 0xFFFF) = some (.absY 0xFFFF) := by decide

theorem witness_FetchEightReadsThenAdvancesPc :
    completes (memRead 0x0600 State.reset.pc State.reset) = true ∧
    completes (memRead 0xFFFF (load 0xFFFF 65535 [] []).pc (load 0xFFFF 65535 [] [])) = false := by decide

theorem witness_FetchSixteenIsLittleEndian :
    completes (fetch8 0x0600 State.reset) = true ∧ completes (fetch8 0x0600 (State.reset.setPC 0x0601)) = true ∧
    completes (fetch8 0xFFFF (load 0xFFFF 65535 [] [])) = false ∧
    completes (fetch8 0xFFFE (load 0xFFFE 65535 [] [])) = true ∧ completes (fetch16 0xFFFE (load 0xFFFE 65535 [] [])) = false := by
  decide

theorem witness_ZeroPageModesStayInPageZero :
    (table 0xA5).map Entry.pair = some (.lda, .zp) ∧ (table 0xB5).map Entry.pair = some (.lda, .zpX) ∧
    (table 0xB6).map Entry.pair = some (.ldx, .zpY) ∧ (table 0x96).map Entry.pair = some (.stx, .zpY) ∧
    completes (fetch8 0x0600 State.reset) = true := by decide

theorem witness_AbsoluteModeIsTheOperandWord :
    (table 0xAD).map Entry.pair = some (.lda, .abs) ∧ (table 0x4C).map Entry.pair = some (.jmp, .abs) ∧
    completes (fetch16 0x0600 State.reset) = true := by decide

/-- The pointer bytes of INDX: both there; the first past 128 cells; the second past them. -/
theorem witness_IndexedIndirectReadsPageZeroPointer :
    State.reset.validAddr (BitVec.ofNat 16 ((0xFF + State.reset.x.toNat) % 256)) ∧ State.reset.validAddr 0x0000 ∧
    ¬ (load 0x0010 0x80 [] []).validAddr 0x0080 ∧ (load 0x0010 0x80 [] []).validAddr 0x007F := by decide

theorem witness_IndirectIndexedAddsYToPointer :
    State.reset.validAddr 0x00FF ∧ State.reset.validAddr 0x0000 ∧
    ¬ (load 0x0010 0x80 [] []).validAddr 0x0080 ∧ (load 0x0010 0x80 [] []).validAddr 0x007F := by decide

/-- Three bytes up to the last cell, and a fetch of an entry's operand. -/
theorem witness_StepRunsTheInstructionAtPc :
    let s := load 0xFFFC 65535 [0xAD, 0x34, 0x12] []
    s.running = true ∧
    (∀ k, (h : k < (encode (.ldaAbs 0x1234)).length) →
      s.validAddr (s.pc + BitVec.ofNat 16 k) ∧ s.pc + BitVec.ofNat 16 k ≠ 0x00FE ∧
      s.mem.read (s.pc + BitVec.ofNat 16 k).toNat = (encode (.ldaAbs 0x1234))[k]) ∧
    completes (fetch8 s.pc s) = true ∧ completes (fetchOperand s.pc (.f3 .ldaAbs) (s.setPC 0xFFFD)) = true := by decide

theorem witness_HaltedEngineIsQuiescent : State.running { State.reset with running := false } = false := by decide

/-- A cell inside, a cell outside, and a pointer that fails, for an instruction that reads. -/
theorem witness_LdaLoadsTheAccumulator :
    inside (.ldaAbs 0xFFFE) State.reset = true ∧ outside (.ldaAbs 0xFFFF) State.reset = true ∧
    pointerFails (.ldaIndX 0x7F) (load 0x0010 0x80 [] []) = true := by decide

/-- LDX has no form with a pointer, so none whose resolution raises. -/
theorem witness_LdxLoadsIndexX :
    inside (.ldxAbs 0xFFFE) State.reset = true ∧ outside (.ldxAbs 0xFFFF) State.reset = true := by decide

theorem witness_StaAndStxStoreTheirRegister :
    inside (.staAbs 0xFFFE) State.reset = true ∧ outside (.staAbs 0xFFFF) State.reset = true ∧
    pointerFails (.staIndY 0x7F) (load 0x0010 0x80 [] []) = true ∧
    inside (.stxAbs 0xFFFE) State.reset = true ∧ outside (.stxAbs 0xFFFF) State.reset = true := by decide

theorem witness_OraAndAndCombineBitwise :
    inside (.oraAbs 0xFFFE) State.reset = true ∧ outside (.oraAbs 0xFFFF) State.reset = true ∧
    pointerFails (.oraIndX 0x7F) (load 0x0010 0x80 [] []) = true ∧
    inside (.andAbs 0xFFFE) State.reset = true ∧ outside (.andAbs 0xFFFF) State.reset = true ∧
    pointerFails (.andIndY 0x7F) (load 0x0010 0x80 [] []) = true := by decide

theorem witness_AslDoublesItsOperand :
    inside (.aslAbs 0xFFFE) State.reset = true ∧ outside (.aslAbs 0xFFFF) State.reset = true := by decide

theorem witness_AdcAddsWithCarry :
    inside (.adcAbs 0xFFFE) State.reset = true ∧ outside (.adcAbs 0xFFFF) State.reset = true ∧
    pointerFails (.adcIndX 0x7F) (load 0x0010 0x80 [] []) = true := by decide

theorem witness_CmpComparesWithoutWriting :
    inside (.cmpAbs 0xFFFE) State.reset = true ∧ outside (.cmpAbs 0xFFFF) State.reset = true ∧
    pointerFails (.cmpIndY 0x7F) (load 0x0010 0x80 [] []) = true := by decide

theorem witness_IncAndDecChangeTheirCellByOne :
    inside (.incAbs 0xFFFE) State.reset = true ∧ outside (.incAbs 0xFFFF) State.reset = true ∧
    inside (.decAbs 0xFFFE) State.reset = true ∧ outside (.decAbs 0xFFFF) State.reset = true := by decide

theorem witness_JmpSetsPcToItsTarget :
    State.reset.validAddr 0xFFFD ∧ State.reset.validAddr 0xFFFE ∧ ¬ State.reset.validAddr 0xFFFF := by decide

theorem witness_UnmappedOpcodeFaultsAfterItsByte :
    (load 0x0600 65535 [0xFF] []).running = true ∧ (load 0x0600 65535 [0xFF] []).peek 0x0600 = 0xFF ∧
    completes (fetch8 0x0600 (load 0x0600 65535 [0xFF] [])) = true ∧ (table 0xFF).isNone = true := by decide

/-- PC without a cell; the first operand byte of two without one; the second without one. -/
theorem witness_FetchFaultsLeavePcAtTheMissingByte :
    ¬ (load 0xFFFF 65535 [] []).validAddr 0xFFFF ∧
    (load 0xFFFE 65535 [0xAD] []).validAddr 0xFFFE ∧ ¬ (load 0xFFFE 65535 [0xAD] []).validAddr (0xFFFE + 1) ∧
    (load 0xFFFE 65535 [0xAD] []).peek 0xFFFE = 0xAD ∧ (table 0xAD).map Entry.operandBytes = some 2 ∧
    (load 0xFFFD 65535 [0xAD, 0x00] []).validAddr (0xFFFD + 1) ∧
    ¬ (load 0xFFFD 65535 [0xAD, 0x00] []).validAddr (0xFFFD + 2) ∧ (load 0xFFFD 65535 [0xAD, 0x00] []).peek 0xFFFD = 0xAD := by
  decide

theorem witness_FaultsChangeOnlyPcRunningAndLatch :
    (load 0x0600 65535 [0xAD, 0xFF, 0xFF] []).running = true ∧ (load 0x0600 65535 [0xAD, 0xFF, 0xFF] []).fault = none ∧
    (nextOf (step (load 0x0600 65535 [0xAD, 0xFF, 0xFF] []))).map State.fault = some (some (.outOfBounds 0xFFFF 0x0600)) ∧
    (nextOf (step (load 0x0600 65535 [0x02] []))).map State.fault = some (some (.invalidOpcode 0x02 0x0600)) := by decide

/-- The reset machine after an unmapped byte at its entry. -/
def faultedState : State :=
  { load 0x0600 65535 [0x02] [] with pc := 0x0601, running := false, fault := some (.invalidOpcode 0x02 0x0600) }

theorem witness_FaultedStateIsFinal :
    faultedState.Inv ∧ faultedState.fault ≠ none ∧
    nextOf (runMoves faultedState [.step, .requestStop, .observe 0x0600 0x00]) = some faultedState := by
  refine ⟨?_, by decide, by decide⟩
  constructor <;> decide

theorem witness_StopRequestHaltsForGood : (nextOf (runMoves State.reset [.requestStop, .step, .step])).isSome = true := by decide

/-- The four ways, and a step that stops nothing. -/
theorem witness_EngineStopsInExactlyFourWays :
    (nextOf (Move.apply (load 0x0600 65535 [0x00] []) .step)).map State.running = some false ∧
    (nextOf (Move.apply (load 0xFFFF 65535 [] []) .step)).map State.fault = some (some (.outOfBounds 0xFFFF 0xFFFF)) ∧
    (nextOf (Move.apply (load 0x0600 65535 [0x02] []) .step)).map State.fault = some (some (.invalidOpcode 0x02 0x0600)) ∧
    (nextOf (Move.apply State.reset .requestStop)).map State.running = some false ∧
    (nextOf (Move.apply (load 0x0600 65535 [0xEA] []) .step)).map State.running = some true ∧
    (nextOf (Move.apply { State.reset with running := false } .step)).isSome = true ∧ State.reset.fault = none := by decide

theorem witness_UnlistedFlagsAreUntouched :
    (nextOf (exec (.staZp 0xFF) State.reset)).isSome = true ∧ (nextOf (exec .brk State.reset)).isSome = true ∧
    (nextOf (exec (.adcImm 0xFF) State.reset)).isSome = true := by decide

theorem witness_UnlistedRegistersAreUntouched :
    (nextOf (exec (.cmpImm 0xFF) State.reset)).isSome = true ∧ (nextOf (exec (.aslAbs 0xFFFF) State.reset)).isSome = true := by
  decide

theorem witness_OnlyControlTransfersMovePc :
    (nextOf (exec (.ldaAbs 0xFFFF) State.reset)).map State.pc = some 0x0600 ∧
    (nextOf (exec (.jmpInd 0xFFFF) State.reset)).map State.fault = some (some (.outOfBounds 0xFFFF (0x0600 - 3))) := by decide

theorem witness_OtherBytesOfMemoryAreUntouched :
    (nextOf (exec .aslAcc State.reset)).isSome = true ∧ (nextOf (exec (.staAbs 0xFFFE) State.reset)).isSome = true ∧
    inside (.staAbs 0xFFFE) State.reset = true ∧ outside (.staAbs 0xFFFF) State.reset = true ∧
    pointerFails (.staIndX 0x7F) (load 0x0010 0x80 [] []) = true := by decide

theorem witness_OnlyBrkAndFaultsTouchControlState :
    (nextOf (exec .brk State.reset)).map State.running = some false ∧
    (nextOf (exec .nop State.reset)).map State.running = some true ∧
    (nextOf (exec (.incAbs 0xFFFF) State.reset)).map State.running = some false := by decide

/-- An instruction of each kind: no operand in memory, a cell, a pointer, a jump through the last cells. -/
theorem witness_ReachableInstructionsComplete :
    memFormOf .nop = none ∧ reachable (.abs 0xFFFE) State.reset = true ∧ reachable (.indX 0xFF) State.reset = true ∧
    State.reset.validAddr 0xFFFD ∧ State.reset.validAddr (0xFFFD + 1) := by decide

theorem witness_EveryMoveKeepsTheInvariant :
    faultedState.Inv ∧ (nextOf (Move.apply faultedState .step)).isSome = true ∧
    (nextOf (Move.apply faultedState .requestStop)).isSome = true :=
  ⟨witness_FaultedStateIsFinal.1, by decide, by decide⟩

theorem witness_EveryRunEndsInExactlyOneWay :
    memSizeAllowed 65536 = true ∧
    (nextOf (runMoves (boot 65536 0x0600 0 [.writeBulk 0x0600 [0xEA, 0x00]]) [.step, .step])).map State.endedWell = some true ∧
    (nextOf (runMoves (boot 65536 0x0600 0 [.write 0x0600 0x02]) [.step])).map State.faulted = some true ∧
    (nextOf (runMoves (boot 65536 0x0600 0 []) [.requestStop])).map State.cutShort = some true := by decide

theorem witness_TheCellUnderTheTrapIsNeverRead :
    (load 0x0600 65535 [0x85, 0xFE] []).mem.wf ∧ (load 0x0600 65535 [0x85, 0xFE] []).validAddr 0x00FE ∧
    (nextOf (step (load 0x0600 65535 [0x85, 0xFE] []))).isSome = true := by decide

/-- Five accesses, the last a write, and a read of the trap address. -/
theorem witness_AccessListAccountsForTheStep :
    stepAccesses (load 0x0600 65535 [0xEE, 0x05, 0x03] [(0x0305, 0xAA)]) =
      [.read 0x0600, .read 0x0601, .read 0x0602, .read 0x0305, .write 0x0305 0xAB] ∧
    (nextOf (step (load 0x0600 65535 [0xEE, 0x05, 0x03] [(0x0305, 0xAA)]))).isSome = true := by decide

end Sys2Proof.Tests
end

section
/-! SUPPORT. The frame statements and the invariant, from the outcomes of an instruction and of a step. -/

open Sys2Proof Sys2Proof.Machine Sys2Proof.Claims

namespace Sys2Proof.Machine

/-! ## Frames over all instructions -/

/-- Read off a known answer: an instruction keeps what its rule does not list, or has raised `OutOfBounds`. -/
theorem exec_next_cases {i : Instr} {s t : State} (h : exec i s = .next t) :
    Kept i s t ∨ ∃ a n, ¬ s.validAddr a ∧ t = s.oob n a (start i s) := by
  rcases exec_cases i s with ⟨t', h', hk⟩ | ⟨a, n, ha, h'⟩ <;> obtain rfl := Host.Outcome.next.inj (h.symm.trans h')
  · exact .inl hk
  · exact .inr ⟨a, n, ha, rfl⟩

/-- Settles O47, from the two outcomes of an instruction: its frame, or the state it started in with a fault latched. -/
theorem unlistedFlagsAreUntouched : Obligations.UnlistedFlagsAreUntouched := by
  intro i s t h
  rcases exec_next_cases h with hk | ⟨a, n, -, rfl⟩
  · have hb : i.mnemonic ≠ .brk → i ≠ .brk := fun hne he => hne (he ▸ rfl)
    exact ⟨hk.carry, hk.zn, hk.overflow, fun hne => hk.breakFlag (hb hne), hk.interruptDisable, hk.decimalMode⟩
  · simp [State.oob]

/-- Settles O48, from the two outcomes of an instruction: its frame, or the state it started in with a fault latched. -/
theorem unlistedRegistersAreUntouched : Obligations.UnlistedRegistersAreUntouched := by
  intro i s t h
  rcases exec_next_cases h with hk | ⟨a, n, -, rfl⟩
  · exact ⟨hk.a, hk.x, hk.y, hk.sp, hk.memSize⟩
  · simp [State.oob]

/-- Settles O51: the first alternative is the frame, the second the fault entry of an `OutOfBounds`. -/
theorem onlyBrkAndFaultsTouchControlState : Obligations.OnlyBrkAndFaultsTouchControlState := by
  intro i s t h
  rcases exec_next_cases h with hk | ⟨a, n, ha, rfl⟩
  · exact .inl ⟨hk.fault, hk.running⟩
  · exact .inr ⟨a, ha, rfl, rfl⟩

/-! ## The invariant -/

namespace State.Inv

/-- A running engine has no fault latched. -/
theorem fault_none {s : State} (h : s.Inv) (hr : s.running = true) : s.fault = none := by
  by_contra hf
  simp [h.fault_halts hf] at hr

/-- A running engine has B clear. -/
theorem breakFlag_false {s : State} (h : s.Inv) (hr : s.running = true) : s.breakFlag = false := by
  by_contra hb
  simp [h.break_halts (by simpa using hb)] at hr

/-- Moving PC and taking draws keeps the invariant, which speaks of neither. -/
theorem fetched {s : State} (h : s.Inv) (pc : Word) (n : Nat) : (s.fetched pc n).Inv := ⟨
  h.mem_wf, h.mem_inside, h.size_allowed, h.sp_inert, h.i_inert, h.d_inert, h.fault_halts, h.break_halts,
  h.fault_excludes_break⟩

/-- Clearing RUNNING keeps the invariant. -/
theorem halt {s : State} (h : s.Inv) : s.halt.Inv :=
  { h with fault_halts := fun _ => rfl, break_halts := fun _ => rfl }

/-- Taking a fault keeps the invariant of a running engine: its B is clear. -/
theorem takeFault {s : State} (h : s.Inv) (hr : s.running = true) (f : Fault) : (s.takeFault f).Inv :=
  { h with
    fault_halts := fun _ => rfl
    break_halts := fun _ => rfl
    fault_excludes_break := fun _ => h.breakFlag_false hr }

/-- What an instruction that raises nothing leaves of a running engine has the invariant: the latch stays empty, and B is
set by BRK only, which halts. -/
theorem of_kept {i : Instr} {s t : State} (h : s.Inv) (hr : s.running = true) (hk : Kept i s t) : t.Inv := by
  have hf : t.fault = none := hk.fault.trans (h.fault_none hr)
  have hmem : t.mem.wf ∧ ∀ c ∈ t.mem, c.1 < t.memSize := by
    rw [hk.memSize]
    rcases hk.mem with hm | ⟨m, ea, n, v, -, -, -, hv, hm⟩ <;> rw [hm]
    · exact ⟨h.mem_wf, h.mem_inside⟩
    · exact ⟨Memory.write_wf h.mem_wf _ _, Memory.write_inside h.mem_inside hv v⟩
  refine ⟨hmem.1, hmem.2, by rw [hk.memSize]; exact h.size_allowed, hk.sp.trans h.sp_inert,
    hk.interruptDisable.trans h.i_inert, hk.decimalMode.trans h.d_inert, fun hne => absurd hf hne, fun hb => ?_,
    fun hne => absurd hf hne⟩
  by_cases hi : i = .brk
  · exact (hk.brk hi).1
  · rw [hk.breakFlag hi, h.breakFlag_false hr] at hb
    cases hb

/-- A step keeps the invariant. -/
theorem step {s t : State} (h : s.Inv) (ht : Machine.step s = .next t) : t.Inv := by
  cases hr : s.running with
  | false =>
    rw [step_halted hr] at ht
    cases ht
    exact h
  | true =>
    rcases step_cases hr with ⟨i, n, t', -, hs, hk⟩ | ⟨a, pc, n, -, hs⟩ | ⟨op, n, -, hs⟩ <;>
      rw [hs] at ht <;> cases ht
    · exact of_kept (h.fetched (s.pc + BitVec.ofNat 16 i.length) n) hr hk
    · exact (h.fetched pc n).takeFault hr _
    · exact (h.fetched (s.pc + 1) n).takeFault hr _

end State.Inv

/-- Settles O53, by cases on the move: a step keeps the invariant by its three outcomes, a stop request only clears RUNNING,
an observer's read changes nothing. -/
theorem everyMoveKeepsTheInvariant : Obligations.EveryMoveKeepsTheInvariant := by
  intro s t mv h ht
  cases mv with
  | step => exact h.step ht
  | requestStop => cases ht; exact h.halt
  | observe a drawn => cases ht; exact h

end Sys2Proof.Machine
end

section
/-! SUPPORT. Noninterference. Two states are told apart by what an engine reads of them: A, X, Y, PC, C, Z, RUNNING, the memory
size, and what a read of a byte answers. A relation of states that read alike and stay related under every shared operation
is kept by every instruction and every step. The two statements are two such relations. -/

open Sys2Proof Sys2Proof.Machine Sys2Proof.Claims

namespace Sys2Proof.Machine

/-! ## Relations the engine cannot see through -/

/-- Related states read alike. -/
structure ReadsAlike (s s' : State) : Prop where
  a : s'.a = s.a
  x : s'.x = s.x
  y : s'.y = s.y
  pc : s'.pc = s.pc
  carry : s'.carry = s.carry
  zero : s'.zero = s.zero
  running : s'.running = s.running
  memSize : s'.memSize = s.memSize
  peek : ∀ b, s'.peek b = s.peek b

/-- A relation of states that read alike, kept by every shared operation done on both sides. -/
structure Unseen (R : State → State → Prop) : Prop where
  alike : ∀ {s s'}, R s s' → ReadsAlike s s'
  setA : ∀ {s s'} (v : Byte), R s s' → R (s.setA v) (s'.setA v)
  setX : ∀ {s s'} (v : Byte), R s s' → R (s.setX v) (s'.setX v)
  setY : ∀ {s s'} (v : Byte), R s s' → R (s.setY v) (s'.setY v)
  setPC : ∀ {s s'} (v : Word), R s s' → R (s.setPC v) (s'.setPC v)
  setC : ∀ {s s'} (v : Bool), R s s' → R (s.setC v) (s'.setC v)
  setV : ∀ {s s'} (v : Bool), R s s' → R (s.setV v) (s'.setV v)
  setB : ∀ {s s'} (v : Bool), R s s' → R (s.setB v) (s'.setB v)
  setZN : ∀ {s s'} (v : Byte), R s s' → R (s.setZN v) (s'.setZN v)
  halt : ∀ {s s'}, R s s' → R s.halt s'.halt
  drew : ∀ {s s'}, R s s' → R s.drew s'.drew
  takeFault : ∀ {s s'} (f : Fault), R s s' → R (s.takeFault f) (s'.takeFault f)
  write : ∀ {s s'} (b : Nat) (v : Byte), R s s' → R (s.setMem (s.mem.write b v)) (s'.setMem (s'.mem.write b v))

/-- Two parts of a step end alike: with the same value or both in a fault, in related states. -/
inductive Attempt.Alike (R : State → State → Prop) {α : Type} : Attempt α → Attempt α → Prop
  | done (v : α) {s s' : State} (h : R s s') : Alike R (.done v s) (.done v s')
  | raised {s s' : State} (h : R s s') : Alike R (.raised s) (.raised s')

/-- Two results are next states and related. -/
inductive NextAlike (R : State → State → Prop) : StepResult → StepResult → Prop
  | next {s s' : State} (h : R s s') : NextAlike R (.next s) (.next s')

theorem Attempt.Alike.andThen {R : State → State → Prop} {α β : Type} {r r' : Attempt α} {k k' : α → State → Attempt β}
    (h : Alike R r r') (hk : ∀ v s s', R s s' → Alike R (k v s) (k' v s')) : Alike R (r.andThen k) (r'.andThen k') := by
  cases h with
  | done v h => exact hk v _ _ h
  | raised h => exact .raised h

theorem Attempt.Alike.finish {R : State → State → Prop} {α : Type} {r r' : Attempt α} {f f' : α → State → State}
    (h : Alike R r r') (hf : ∀ v s s', R s s' → R (f v s) (f' v s')) : NextAlike R (r.finish f) (r'.finish f') := by
  cases h with
  | done v h => exact .next (hf v _ _ h)
  | raised h => exact .next h

/-- A body done on both sides keeps the relation. -/
def Keeps (R : State → State → Prop) (f : State → State) : Prop := ∀ s s', R s s' → R (f s) (f s')

/-- A body on a value that reads alike. -/
theorem Keeps.onRead {R : State → State → Prop} {α : Type} {value : State → α}
    (hv : ∀ s s', R s s' → value s' = value s) {f : α → State → State} (hf : ∀ v, Keeps R (f v)) :
    Keeps R fun s => f (value s) s := fun s s' h => by
  simp only [hv s s' h]
  exact hf (value s) s s' h

/-- The bodies of a behaviour keep the relation, and the register it stores reads alike. -/
def Behaviour.Keeps (R : State → State → Prop) : Behaviour → Prop
  | .body f => Machine.Keeps R f
  | .reads _ f => ∀ v, Machine.Keeps R (f v)
  | .stores _ reg => ∀ s s', R s s' → reg s' = reg s
  | .modifies _ _ f => ∀ v, Machine.Keeps R (f v)
  | .pointer _ => True

namespace Unseen

variable {R : State → State → Prop} (hR : Unseen R) {s s' : State}
include hR

/-! ### The shared operations -/

theorem validAddr (h : R s s') (b : Word) : s'.validAddr b ↔ s.validAddr b := by
  rw [State.validAddr, State.validAddr, (hR.alike h).memSize]

theorem instrStart (h : R s s') (k : Nat) : Machine.instrStart k s' = Machine.instrStart k s := by
  rw [Machine.instrStart, Machine.instrStart, (hR.alike h).pc]

theorem afterRead (h : R s s') (b : Word) : R (s.afterRead b) (s'.afterRead b) := by
  unfold State.afterRead
  split
  · exact hR.drew h
  · exact h

theorem memRead (h : R s s') (pc0 b : Word) : Attempt.Alike R (Machine.memRead pc0 b s) (Machine.memRead pc0 b s') := by
  by_cases hv : s.validAddr b
  · rw [memRead_valid hv, memRead_valid ((hR.validAddr h b).2 hv), (hR.alike h).peek]
    exact .done _ (hR.afterRead h b)
  · rw [memRead_invalid hv, memRead_invalid fun hv' => hv ((hR.validAddr h b).1 hv')]
    exact .raised (hR.takeFault _ h)

theorem memWrite (h : R s s') (pc0 b : Word) (v : Byte) :
    Attempt.Alike R (Machine.memWrite pc0 b v s) (Machine.memWrite pc0 b v s') := by
  by_cases hv : s.validAddr b
  · rw [memWrite_valid hv, memWrite_valid ((hR.validAddr h b).2 hv)]
    exact .done () (hR.write _ v h)
  · rw [memWrite_invalid hv, memWrite_invalid fun hv' => hv ((hR.validAddr h b).1 hv')]
    exact .raised (hR.takeFault _ h)

/-- Two reads making a word. -/
theorem twoReads (h : R s s') (pc0 b c : Word) :
    Attempt.Alike R
      ((Machine.memRead pc0 b s).andThen fun lo t => (Machine.memRead pc0 c t).andThen fun hi u => .done (mk16 hi lo) u)
      ((Machine.memRead pc0 b s').andThen fun lo t => (Machine.memRead pc0 c t).andThen fun hi u => .done (mk16 hi lo) u) :=
  (hR.memRead h pc0 b).andThen fun lo _ _ h => (hR.memRead h pc0 c).andThen fun hi _ _ h => .done (mk16 hi lo) h

theorem resolve (h : R s s') (pc0 : Word) (m : MemForm) :
    Attempt.Alike R (Machine.resolve pc0 m s) (Machine.resolve pc0 m s') := by
  have hx := (hR.alike h).x
  cases m <;> simp only [Machine.resolve, readZpPointer, hx, (hR.alike h).y]
  case indX p => exact hR.twoReads h pc0 _ _
  case indY p =>
    refine (hR.twoReads h pc0 _ _).andThen fun base t t' ht => ?_
    rw [(hR.alike ht).y]
    exact .done _ ht
  all_goals exact .done _ h

/-! ### The instructions -/

theorem ldaBody (v : Byte) : Keeps R (Machine.ldaBody v) := fun _ _ h => hR.setZN v (hR.setA v h)

theorem ldxBody (v : Byte) : Keeps R (Machine.ldxBody v) := fun _ _ h => hR.setZN v (hR.setX v h)

theorem oraBody (v : Byte) : Keeps R (Machine.oraBody v) := fun s s' h => by
  rw [Machine.oraBody, Machine.oraBody, (hR.alike h).a]
  exact hR.setZN _ (hR.setA _ h)

theorem andBody (v : Byte) : Keeps R (Machine.andBody v) := fun s s' h => by
  rw [Machine.andBody, Machine.andBody, (hR.alike h).a]
  exact hR.setZN _ (hR.setA _ h)

theorem adcBody (v : Byte) : Keeps R (Machine.adcBody v) := fun s s' h => by
  rw [Machine.adcBody, Machine.adcBody, (hR.alike h).a, (hR.alike h).carry]
  exact hR.setZN _ (hR.setA _ (hR.setV _ (hR.setC _ h)))

theorem cmpBody (v : Byte) : Keeps R (Machine.cmpBody v) := fun s s' h => by
  rw [Machine.cmpBody, Machine.cmpBody, (hR.alike h).a]
  exact hR.setZN _ (hR.setC _ h)

theorem aslFlags (v : Byte) : Keeps R (Machine.aslFlags v) := fun _ _ h => hR.setZN _ (hR.setC _ h)

/-- A branch tests the same condition on both sides and jumps to the same target. -/
theorem branchBody {cond : State → Bool} (hc : ∀ s s', R s s' → cond s' = cond s) (d : Byte) :
    Keeps R (Machine.branchBody cond d) := fun s s' h => by
  rw [Machine.branchBody, Machine.branchBody, hc s s' h, (hR.alike h).pc]
  split
  · exact hR.setPC _ h
  · exact h

theorem memBehaviour_keeps (n : Mnemonic) (m : MemForm) : (memBehaviour n m).Keeps R := by
  cases n
  case lda => exact hR.ldaBody
  case ldx => exact hR.ldxBody
  case ora => exact hR.oraBody
  case and => exact hR.andBody
  case adc => exact hR.adcBody
  case cmp => exact hR.cmpBody
  case sta => exact fun s s' h => (hR.alike h).a
  case stx => exact fun s s' h => (hR.alike h).x
  case asl => exact hR.aslFlags
  case inc => exact fun v s s' h => hR.setZN _ h
  case dec => exact fun v s s' h => hR.setZN _ h
  all_goals exact fun s s' h => h

theorem plainBehaviour_keeps (i : Instr) : (plainBehaviour i).Keeps R := by
  have ha (s s') (h : R s s') := (hR.alike h).a
  have hx (s s') (h : R s s') := (hR.alike h).x
  have hy (s s') (h : R s s') := (hR.alike h).y
  have hz (s s') (h : R s s') := (hR.alike h).zero
  have setY (v : Byte) : Keeps R fun s => (s.setY v).setZN v := fun _ _ h => hR.setZN v (hR.setY v h)
  cases i
  case ldaImm v => exact hR.ldaBody v
  case ldxImm v => exact hR.ldxBody v
  case oraImm v => exact hR.oraBody v
  case andImm v => exact hR.andBody v
  case adcImm v => exact hR.adcBody v
  case cmpImm v => exact hR.cmpBody v
  case tax => exact Keeps.onRead ha hR.ldxBody
  case txa => exact Keeps.onRead hx hR.ldaBody
  case tay => exact Keeps.onRead ha setY
  case tya => exact Keeps.onRead hy hR.ldaBody
  case aslAcc =>
    exact Keeps.onRead (f := fun v s => Machine.aslFlags v (s.setA (aslValue v))) ha
      fun v _ _ h => hR.aslFlags v _ _ (hR.setA _ h)
  case inx => exact Keeps.onRead (fun s s' h => by rw [hx s s' h]) hR.ldxBody
  case iny => exact Keeps.onRead (fun s s' h => by rw [hy s s' h]) setY
  case jmpAbs w => exact fun s s' h => hR.setPC w h
  case jmpInd w => trivial
  case beq d => exact hR.branchBody hz d
  case bne d => exact hR.branchBody (fun s s' h => by rw [hz s s' h]) d
  case brk => exact fun s s' h => hR.halt (hR.setB true h)
  all_goals exact fun s s' h => h

theorem behaviour_keeps (i : Instr) : (behaviour i).Keeps R := by
  unfold behaviour
  split
  · exact hR.memBehaviour_keeps _ _
  · exact hR.plainBehaviour_keeps i

/-- A behaviour whose bodies keep the relation ends alike from related states. -/
theorem run {b : Behaviour} (hb : b.Keeps R) (h : R s s') : NextAlike R (b.run s) (b.run s') := by
  have hres (m : MemForm) := hR.resolve h (Machine.instrStart (formLength m) s) m
  cases b with
  | body f => exact .next (hb s s' h)
  | reads m f =>
    rw [Behaviour.run, Behaviour.run, readThen, readThen, hR.instrStart h]
    exact ((hres m).andThen fun ea _ _ h => hR.memRead h _ ea).finish hb
  | stores m reg =>
    rw [Behaviour.run, Behaviour.run, storeByte, storeByte, hR.instrStart h, hb s s' h]
    exact ((hres m).andThen fun ea _ _ h => hR.memWrite h _ ea _).finish fun _ _ _ h => h
  | modifies m g f =>
    rw [Behaviour.run, Behaviour.run, modifyThen, modifyThen, hR.instrStart h]
    exact ((hres m).andThen fun ea _ _ h => (hR.memRead h _ ea).andThen fun v _ _ h =>
      (hR.memWrite h _ ea (g v)).andThen fun _ _ _ h => .done v h).finish hb
  | pointer w =>
    rw [Behaviour.run, Behaviour.run, hR.instrStart h]
    exact (hR.twoReads h _ w (w + 1)).finish fun t _ _ h => hR.setPC t h

theorem exec (i : Instr) (h : R s s') : NextAlike R (Machine.exec i s) (Machine.exec i s') := by
  rw [exec_eq_run, exec_eq_run]
  exact hR.run (hR.behaviour_keeps i) h

/-! ### The step -/

theorem fetch8 (h : R s s') (pc0 : Word) : Attempt.Alike R (Machine.fetch8 pc0 s) (Machine.fetch8 pc0 s') := by
  rw [Machine.fetch8, Machine.fetch8, (hR.alike h).pc]
  refine (hR.memRead h pc0 s.pc).andThen fun b t t' ht => ?_
  rw [(hR.alike ht).pc]
  exact .done b (hR.setPC _ ht)

theorem fetchOperand (h : R s s') (pc0 : Word) (e : Entry) :
    Attempt.Alike R (Machine.fetchOperand pc0 e s) (Machine.fetchOperand pc0 e s') := by
  cases e with
  | f1 i => exact .done i h
  | f2 f => exact (hR.fetch8 h pc0).andThen fun b _ _ h => .done (f b) h
  | f3 f =>
    have hw : Attempt.Alike R (fetch16 pc0 s) (fetch16 pc0 s') :=
      (hR.fetch8 h pc0).andThen fun lo _ _ h => (hR.fetch8 h pc0).andThen fun hi _ _ h => .done (mk16 hi lo) h
    exact hw.andThen fun w _ _ h => .done (f w) h

theorem fetchInstr (h : R s s') : Attempt.Alike R (Machine.fetchInstr s) (Machine.fetchInstr s') := by
  rw [Machine.fetchInstr, Machine.fetchInstr, (hR.alike h).pc]
  refine (hR.fetch8 h s.pc).andThen fun op t t' ht => ?_
  cases table op with
  | none => exact .raised (hR.takeFault _ ht)
  | some e => exact hR.fetchOperand ht s.pc e

/-- A step from related states leaves related states. -/
theorem step (h : R s s') : NextAlike R (Machine.step s) (Machine.step s') := by
  have hrun := (hR.alike h).running
  cases hr : s.running with
  | false =>
    rw [step_halted hr, step_halted (hrun.trans hr)]
    exact .next h
  | true =>
    rw [step_running hr, step_running (hrun.trans hr)]
    have hf := hR.fetchInstr h
    generalize Machine.fetchInstr s = r, Machine.fetchInstr s' = r' at hf
    cases hf with
    | done i h => exact hR.exec i h
    | raised h => exact .next h

end Unseen

/-! ## SP, I and D -/

/-- A state with other values of SP, I and D. -/
def State.withInert (s : State) (p : Byte) (i d : Bool) : State :=
  { s with sp := p, interruptDisable := i, decimalMode := d }

/-- The states that differ by given values of SP, I and D. -/
def DiffersInInert (p : Byte) (i d : Bool) (s s' : State) : Prop := s' = s.withInert p i d

/-- The engine sees nothing of SP, I and D. -/
theorem unseen_differsInInert (p : Byte) (i d : Bool) : Unseen (DiffersInInert p i d) := by
  constructor
  case alike => rintro s _ rfl; exact ⟨rfl, rfl, rfl, rfl, rfl, rfl, rfl, rfl, fun _ => rfl⟩
  all_goals intros; subst_vars; rfl

/-- Settles O55: having given values of SP, I and D for its own is a relation the engine cannot see through. -/
theorem inertRegistersInfluenceNothing : Obligations.InertRegistersInfluenceNothing := by
  intro s p i d
  have h := (unseen_differsInInert p i d).step (s := s) rfl
  change step (s.withInert p i d) = _
  generalize step s = r, step (s.withInert p i d) = r' at h
  obtain ⟨rfl⟩ := h
  rfl

/-! ## The cell under the trap -/

/-- Equal memories but for the cell at 0xFE, in canonical form. -/
def DiffersUnderTrap (s s' : State) : Prop := s.mem.wf ∧ ∃ w, s' = s.setMem (s.mem.write 0xFE w)

/-- A write over a write. -/
theorem Memory.write_write_same {m : Memory} (h : m.wf) (a : Nat) (v w : Byte) : (m.write a v).write a w = m.write a w := by
  refine ext_of_read (write_wf (write_wf h a v) a w) (write_wf h a w) fun b => ?_
  rw [read_write (write_wf h a v), read_write h, read_write h]
  split <;> rfl

/-- Writes at two addresses, in either order. -/
theorem Memory.write_comm {m : Memory} (h : m.wf) {a b : Nat} (hab : a ≠ b) (v w : Byte) :
    (m.write a v).write b w = (m.write b w).write a v := by
  refine ext_of_read (write_wf (write_wf h a v) b w) (write_wf (write_wf h b w) a v) fun c => ?_
  rw [read_write (write_wf h a v), read_write (write_wf h b w), read_write h, read_write h]
  split <;> split <;> simp_all

/-- A read answers alike whatever the cell under the trap holds: at the trap address it is a draw. -/
theorem State.peek_write_trap (s : State) (w : Byte) (a : Word) :
    (s.setMem (s.mem.write 0xFE w)).peek a = s.peek a := by
  by_cases ha : a = Config.trapAddr
  · simp [State.peek, ha]
  · have hne : a.toNat ≠ 0xFE := fun h => ha (BitVec.eq_of_toNat_eq h)
    rw [State.peek_of_ne ha, State.peek_of_ne ha, State.setMem_mem, Memory.read_write_ne _ _ hne]

/-- The engine sees nothing of the cell under the trap: a write there leaves no difference, a write elsewhere leaves the
difference it found. -/
theorem unseen_differsUnderTrap : Unseen DiffersUnderTrap := by
  constructor
  case alike => rintro s _ ⟨-, w, rfl⟩; exact ⟨rfl, rfl, rfl, rfl, rfl, rfl, rfl, rfl, s.peek_write_trap w⟩
  case write =>
    rintro s _ b v ⟨hwf, w, rfl⟩
    refine ⟨Memory.write_wf hwf b v, ?_⟩
    by_cases hb : b = 0xFE
    · subst hb
      refine ⟨v, ?_⟩
      simp only [State.setMem, Memory.write_write_same hwf]
    · refine ⟨w, ?_⟩
      simp only [State.setMem, Memory.write_comm hwf (Ne.symm hb)]
  all_goals
    intros
    rename_i h
    obtain ⟨hwf, w, rfl⟩ := h
    exact ⟨hwf, w, rfl⟩

/-- An observer's read answers alike whatever the cell under the trap holds. -/
theorem observe_write_trap (s : State) (v : Byte) (a : Int) (drawn : Byte) :
    observe (s.setMem (s.mem.write 0xFE v)) a drawn = observe s a drawn := by
  simp only [observe, hostRead, State.setMem_mem, State.setMem_memSize]
  cases hostCell s.memSize a with
  | none => rfl
  | some k =>
    by_cases hk : k = 0xFE
    · simp [hk, Config.trapAddr]
    · simp [Memory.read_write_ne _ _ hk]

/-- Settles O56: a write at 0xFE in bounds stores its byte, and a difference there alone is a relation the engine cannot see
through, nor an observer. -/
theorem theCellUnderTheTrapIsNeverRead : Obligations.TheCellUnderTheTrapIsNeverRead := by
  refine ⟨fun pc0 v s hwf hv => ⟨_, memWrite_valid hv, Memory.read_write_same hwf _ v⟩, fun s t v hwf ht => ⟨?_, ?_⟩⟩
  · have h := unseen_differsUnderTrap.step (s := s) ⟨hwf, v, rfl⟩
    change ∃ w, step (s.setMem (s.mem.write 0xFE v)) = .next (t.setMem (t.mem.write 0xFE w))
    rw [ht] at h
    generalize step (s.setMem (s.mem.write 0xFE v)) = r' at h ⊢
    obtain ⟨-, w, rfl⟩ := h
    exact ⟨w, rfl⟩
  · exact observe_write_trap s v

end Sys2Proof.Machine
end

section
/-! SUPPORT. The access list of a step against the state it leaves: every part of a step does to memory and to the draw counter
what its listed accesses say, and these facts join along the step. -/

open Sys2Proof Sys2Proof.Machine Sys2Proof.Claims

namespace Sys2Proof.Machine

/-! ## What a list of accesses accounts for -/

/-- The listed accesses, in bounds all, make up the way from one state to another: its memory, its draws. -/
structure AccountsFor (l : List Access) (s t : State) : Prop where
  mem : t.mem = replay s.mem l
  draws : t.draws = s.draws + l.count (.read 0x00FE)
  memSize : t.memSize = s.memSize
  inBounds : ∀ acc ∈ l, s.validAddr (addressOf acc)

namespace AccountsFor

/-- No access: memory and draws as they were. -/
theorem nil {s t : State} (hm : t.mem = s.mem) (hd : t.draws = s.draws) (hs : t.memSize = s.memSize) :
    AccountsFor [] s t := ⟨hm, hd, hs, by simp⟩

/-- The accesses of two parts, one after the other. -/
theorem append {l l' : List Access} {s t u : State} (h : AccountsFor l s t) (h' : AccountsFor l' t u) :
    AccountsFor (l ++ l') s u where
  mem := by rw [h'.mem, h.mem, replay, replay, replay, List.foldl_append]
  draws := by rw [h'.draws, h.draws, List.count_append, Nat.add_assoc]
  memSize := h'.memSize.trans h.memSize
  inBounds acc hacc := by
    rcases List.mem_append.1 hacc with ha | ha
    · exact h.inBounds acc ha
    · have hv := h'.inBounds acc ha
      rwa [State.validAddr, h.memSize] at hv

/-- What follows without touching memory, its size or the draws adds no access. -/
theorem quiet {l : List Access} {s t u : State} (h : AccountsFor l s t) (hm : u.mem = t.mem) (hd : u.draws = t.draws)
    (hs : u.memSize = t.memSize) : AccountsFor l s u :=
  List.append_nil l ▸ h.append (nil hm hd hs)

/-- A completed read: one listed access, and a draw if it is of the trap address. -/
theorem read {s : State} {a : Word} (h : s.validAddr a) : AccountsFor [.read a] s (s.afterRead a) where
  mem := s.afterRead_mem a
  draws := by
    rw [State.afterRead_eq, State.atDraws_draws, drawsOf]
    by_cases ha : a = Config.trapAddr
    · subst ha
      rfl
    · rw [if_neg ha, List.count_eq_zero.2]
      intro hmem
      exact ha (Access.read.inj (List.mem_singleton.1 hmem)).symm
  memSize := s.afterRead_memSize a
  inBounds := by simpa [addressOf] using h

/-- A completed write: one listed access. -/
theorem write {s : State} {a : Word} (h : s.validAddr a) (v : Byte) :
    AccountsFor [.write a v] s (s.setMem (s.mem.write a.toNat v)) where
  mem := rfl
  draws := rfl
  memSize := rfl
  inBounds := by simpa [addressOf] using h

end AccountsFor

/-! ## Parts of a step -/

/-- The state an attempt ends in, done or raised. -/
def Attempt.state {α : Type} : Attempt α → State
  | .done _ s => s
  | .raised s => s

/-- What is listed after an attempt: nothing once a fault has ended the step. -/
def Attempt.listAfter {α : Type} (r : Attempt α) (rest : α → State → List Access) : List Access :=
  match r with
  | .done v s => rest v s
  | .raised _ => []

/-- Going on after an attempt joins what it lists and what the rest lists. -/
theorem AccountsFor.andThen {α β : Type} {l : List Access} {s : State} {r : Attempt α} {k : α → State → Attempt β}
    {rest : α → State → List Access} (h : AccountsFor l s r.state)
    (hk : ∀ v t, r = .done v t → t.memSize = s.memSize → AccountsFor (rest v t) t (k v t).state) :
    AccountsFor (l ++ r.listAfter rest) s (r.andThen k).state := by
  cases r with
  | done v t => exact h.append (hk v t rfl h.memSize)
  | raised t => exact h.append (.nil rfl rfl rfl)

theorem listRead_valid {s : State} {a : Word} (h : s.validAddr a) : listRead s a = [.read a] := if_pos h

theorem listRead_invalid {s : State} {a : Word} (h : ¬ s.validAddr a) : listRead s a = [] := if_neg h

/-- Which reads are listed depends on the memory size alone. -/
theorem listRead_congr {s t : State} (h : t.memSize = s.memSize) (a : Word) : listRead t a = listRead s a := by
  rw [listRead, listRead, h]

theorem memRead_accounts (pc0 a : Word) (s : State) : AccountsFor (listRead s a) s (memRead pc0 a s).state := by
  by_cases h : s.validAddr a
  · rw [memRead_valid h, listRead_valid h]
    exact .read h
  · rw [memRead_invalid h, listRead_invalid h]
    exact .nil rfl rfl rfl

theorem memWrite_accounts (pc0 a : Word) (v : Byte) (s : State) :
    AccountsFor (if s.validAddr a then [.write a v] else []) s (memWrite pc0 a v s).state := by
  by_cases h : s.validAddr a
  · rw [memWrite_valid h, if_pos h]
    exact .write h v
  · rw [memWrite_invalid h, if_neg h]
    exact .nil rfl rfl rfl

/-- A read and a write back to the same cell: both are listed, or neither. -/
theorem memModify_accounts (pc0 a : Word) (g : Byte → Byte) (s : State) :
    AccountsFor ((memRead pc0 a s).listAfter fun v _ => [.read a, .write a (g v)]) s
      ((memRead pc0 a s).andThen fun v t => (memWrite pc0 a (g v) t).andThen fun _ u => .done v u).state := by
  by_cases h : s.validAddr a
  · have h' : (s.afterRead a).validAddr a := by simpa using h
    rw [memRead_valid h, Attempt.andThen_done, memWrite_valid h']
    exact (AccountsFor.read h).append (.write h' _)
  · rw [memRead_invalid h]
    exact .nil rfl rfl rfl

theorem listTwo_eq (pc0 a b : Word) (s : State) :
    listTwo s a b = listRead s a ++ (memRead pc0 a s).listAfter fun _ _ => listRead s b := by
  by_cases h : s.validAddr a
  · rw [memRead_valid h, listRead_valid h]
    exact if_pos h
  · rw [memRead_invalid h, listRead_invalid h]
    exact if_neg h

/-- Two reads making a word. -/
theorem twoReads_accounts (pc0 a b : Word) (s : State) :
    AccountsFor (listTwo s a b) s
      ((memRead pc0 a s).andThen fun lo t => (memRead pc0 b t).andThen fun hi u => .done (mk16 hi lo) u).state := by
  rw [listTwo_eq pc0]
  refine (memRead_accounts pc0 a s).andThen fun lo t _ ht => ?_
  have h := memRead_accounts pc0 b t
  rw [← listRead_congr ht]
  cases hr : memRead pc0 b t <;> rw [hr] at h <;> exact h

/-- Resolution accounts for its pointer reads. -/
theorem resolve_accounts (pc0 : Word) (m : MemForm) (s : State) :
    AccountsFor (pointerAccesses m s) s (resolve pc0 m s).state := by
  cases m
  case indX p => exact twoReads_accounts pc0 _ _ s
  case indY p =>
    have h := twoReads_accounts pc0 (zext16 p) (zext16 (p + 1)) s
    rw [pointerAccesses, resolve]
    cases hr : readZpPointer pc0 p s <;> rw [← readZpPointer, hr] at h <;> exact h
  all_goals exact .nil rfl rfl rfl

/-! ## The instructions -/

/-- A body that touches neither memory nor draws. -/
def Quiet (f : State → State) : Prop :=
  ∀ s, (f s).mem = s.mem ∧ (f s).draws = s.draws ∧ (f s).memSize = s.memSize

/-- The bodies of a behaviour touch neither memory nor draws. -/
def Behaviour.Quiet : Behaviour → Prop
  | .body f => Machine.Quiet f
  | .reads _ f => ∀ v, Machine.Quiet (f v)
  | .stores _ _ => True
  | .modifies _ _ f => ∀ v, Machine.Quiet (f v)
  | .pointer _ => True

theorem branchBody_quiet (cond : State → Bool) (d : Byte) : Quiet (branchBody cond d) := by
  intro s
  unfold branchBody
  split <;> exact ⟨rfl, rfl, rfl⟩

theorem memBehaviour_quiet (n : Mnemonic) (m : MemForm) : (memBehaviour n m).Quiet := by
  cases n
  case lda | ldx | ora | and | adc | cmp | asl | inc | dec => exact fun v s => ⟨rfl, rfl, rfl⟩
  case sta | stx => trivial
  all_goals exact fun s => ⟨rfl, rfl, rfl⟩

theorem plainBehaviour_quiet (i : Instr) : (plainBehaviour i).Quiet := by
  cases i
  case beq d => exact branchBody_quiet _ d
  case bne d => exact branchBody_quiet _ d
  case jmpInd w => trivial
  all_goals exact fun s => ⟨rfl, rfl, rfl⟩

/-- Memory is touched by the shapes, never by a body. -/
theorem behaviour_quiet (i : Instr) : (behaviour i).Quiet := by
  unfold behaviour
  split
  · exact memBehaviour_quiet _ _
  · exact plainBehaviour_quiet i

/-- An instruction ends with a quiet body, which adds no access. -/
theorem AccountsFor.finish {α : Type} {l : List Access} {s : State} {r : Attempt α} {f : α → State → State}
    (h : AccountsFor l s r.state) (hf : ∀ v, Quiet (f v)) : ∃ t, r.finish f = .next t ∧ AccountsFor l s t := by
  cases r with
  | raised t => exact ⟨t, rfl, h⟩
  | done v t =>
    obtain ⟨hm, hd, hs⟩ := hf v t
    exact ⟨f v t, rfl, h.quiet hm hd hs⟩

/-- What a behaviour does with memory (R49). -/
def Behaviour.use (s : State) : Behaviour → DataUse
  | .body _ => .nothing
  | .reads m _ => .reads m
  | .stores m reg => .writes m (reg s)
  | .modifies m g _ => .modifies m g
  | .pointer w => .pointer w

/-- The table of data uses says of each instruction what its behaviour does. -/
theorem dataUse_eq_use (i : Instr) (s : State) : dataUse i s = (behaviour i).use s := by
  cases i <;> rfl

theorem dataAccesses_reads (m : MemForm) (s : State) :
    dataAccesses (.reads m) s =
      pointerAccesses m s ++ (resolve (instrStart (formLength m) s) m s).listAfter fun ea _ => listRead s ea := by
  rw [dataAccesses]
  cases resolve (instrStart (formLength m) s) m s <;> rfl

theorem dataAccesses_writes (m : MemForm) (v : Byte) (s : State) :
    dataAccesses (.writes m v) s = pointerAccesses m s ++
      (resolve (instrStart (formLength m) s) m s).listAfter fun ea _ =>
        if s.validAddr ea then [.write ea v] else [] := by
  rw [dataAccesses]
  cases resolve (instrStart (formLength m) s) m s <;> rfl

theorem dataAccesses_modifies (m : MemForm) (g : Byte → Byte) (s : State) :
    dataAccesses (.modifies m g) s = pointerAccesses m s ++
      (resolve (instrStart (formLength m) s) m s).listAfter fun ea t =>
        (memRead (instrStart (formLength m) s) ea t).listAfter fun v _ => [.read ea, .write ea (g v)] := by
  rw [dataAccesses]
  cases resolve (instrStart (formLength m) s) m s with
  | raised t => rfl
  | done ea t => simp only [Attempt.listAfter]; cases memRead (instrStart (formLength m) s) ea t <;> rfl

/-- A behaviour with quiet bodies accounts for the accesses of its use. -/
theorem Behaviour.run_accounts {b : Behaviour} (hb : b.Quiet) (s : State) :
    ∃ t, b.run s = .next t ∧ AccountsFor (dataAccesses (b.use s) s) s t := by
  have hres (m : MemForm) := resolve_accounts (instrStart (formLength m) s) m s
  cases b with
  | body f =>
    obtain ⟨hm, hd, hs⟩ := hb s
    exact ⟨f s, rfl, .nil hm hd hs⟩
  | reads m f =>
    rw [Behaviour.use, dataAccesses_reads]
    refine AccountsFor.finish ((hres m).andThen fun ea t _ ht => ?_) hb
    rw [← listRead_congr ht]
    exact memRead_accounts _ ea t
  | stores m reg =>
    rw [Behaviour.use, dataAccesses_writes]
    refine AccountsFor.finish ((hres m).andThen fun ea t _ ht => ?_) fun _ _ => ⟨rfl, rfl, rfl⟩
    change AccountsFor (if ea.toNat < s.memSize then _ else _) _ _
    rw [← ht]
    exact memWrite_accounts _ ea _ t
  | modifies m g f =>
    rw [Behaviour.use, dataAccesses_modifies]
    exact AccountsFor.finish ((hres m).andThen fun ea t _ _ => memModify_accounts _ ea g t) hb
  | pointer w => exact (twoReads_accounts _ w (w + 1) s).finish fun t u => ⟨rfl, rfl, rfl⟩

/-- An instruction does what its listed accesses say. -/
theorem exec_accounts (i : Instr) (s : State) :
    ∃ t, exec i s = .next t ∧ AccountsFor (dataAccesses (dataUse i s) s) s t := by
  rw [exec_eq_run, dataUse_eq_use]
  exact Behaviour.run_accounts (behaviour_quiet i) s

/-! ## The step -/

/-- The operand fetches of a table entry, up to the first out of bounds. -/
def operandAccesses (e : Entry) (s : State) : List Access :=
  match e with
  | .f1 _ => []
  | .f2 _ => listRead s s.pc
  | .f3 _ => listTwo s s.pc (s.pc + 1)

theorem fetch8_accounts (pc0 : Word) (s : State) : AccountsFor (listRead s s.pc) s (fetch8 pc0 s).state := by
  have h := memRead_accounts pc0 s.pc s
  rw [fetch8]
  cases hr : memRead pc0 s.pc s <;> rw [hr] at h <;> exact h.quiet rfl rfl rfl

/-- A completed fetch leaves PC at the next byte. -/
theorem fetch8_done_pc {pc0 : Word} {s t : State} {v : Byte} (h : fetch8 pc0 s = .done v t) : t.pc = s.pc + 1 := by
  rcases fetch8_cases pc0 s with ⟨-, h'⟩ | ⟨-, h'⟩ <;> rw [h'] at h <;> cases h
  rfl

theorem fetch16_accounts (pc0 : Word) (s : State) :
    AccountsFor (listTwo s s.pc (s.pc + 1)) s (fetch16 pc0 s).state := by
  have hl : listTwo s s.pc (s.pc + 1) =
      listRead s s.pc ++ (fetch8 pc0 s).listAfter fun _ _ => listRead s (s.pc + 1) := by
    rw [listTwo_eq pc0, fetch8]
    cases memRead pc0 s.pc s <;> rfl
  rw [hl, fetch16]
  refine (fetch8_accounts pc0 s).andThen fun lo t ht hs => ?_
  have h := fetch8_accounts pc0 t
  rw [fetch8_done_pc ht, listRead_congr hs] at h
  cases hr : fetch8 pc0 t <;> rw [hr] at h <;> exact h

theorem fetchOperand_accounts (pc0 : Word) (e : Entry) (s : State) :
    AccountsFor (operandAccesses e s) s (fetchOperand pc0 e s).state := by
  cases e with
  | f1 i => exact .nil rfl rfl rfl
  | f2 f =>
    have h := fetch8_accounts pc0 s
    rw [fetchOperand]
    cases hr : fetch8 pc0 s <;> rw [hr] at h <;> exact h
  | f3 f =>
    have h := fetch16_accounts pc0 s
    rw [fetchOperand]
    cases hr : fetch16 pc0 s <;> rw [hr] at h <;> exact h

/-- The fetches of a step: the opcode byte, then the operand bytes of its entry. -/
theorem fetchAccesses_eq (s : State) :
    fetchAccesses s = listRead s s.pc ++
      (fetch8 s.pc s).listAfter fun op t => (table op).elim [] fun e => operandAccesses e t := by
  rcases fetch8_cases s.pc s with ⟨hv, h⟩ | ⟨hv, h⟩ <;> rw [fetchAccesses, h]
  · rw [listRead_valid hv]
    refine congrArg (Access.read s.pc :: ·) ?_
    simp only [Attempt.listAfter]
    cases table (s.peek s.pc) with
    | none => rfl
    | some e => cases e <;> rfl
  · rw [listRead_invalid hv]
    rfl

theorem fetchInstr_accounts (s : State) : AccountsFor (fetchAccesses s) s (fetchInstr s).state := by
  rw [fetchAccesses_eq, fetchInstr]
  refine (fetch8_accounts s.pc s).andThen fun op t _ _ => ?_
  cases table op with
  | none => exact .nil rfl rfl rfl
  | some e => exact fetchOperand_accounts s.pc e t

/-- The accesses of a step of a running engine: its fetches, then its instruction's own. -/
theorem stepAccesses_running {s : State} (h : s.running = true) :
    stepAccesses s = fetchAccesses s ++ (fetchInstr s).listAfter fun i t => dataAccesses (dataUse i t) t := by
  rw [stepAccesses, if_pos h]
  cases fetchInstr s <;> rfl

theorem stepAccesses_halted {s : State} (h : s.running = false) : stepAccesses s = [] := by
  rw [stepAccesses, if_neg (by simp [h])]

/-- A step does what its listed accesses say. -/
theorem step_accounts {s t : State} (ht : step s = .next t) : AccountsFor (stepAccesses s) s t := by
  cases hr : s.running with
  | false =>
    rw [step_halted hr] at ht
    rw [stepAccesses_halted hr]
    cases ht
    exact .nil rfl rfl rfl
  | true =>
    have hf := fetchInstr_accounts s
    rw [step_running hr] at ht
    rw [stepAccesses_running hr]
    generalize fetchInstr s = r at hf ht
    cases r with
    | done i u =>
      obtain ⟨t', ht', ha⟩ := exec_accounts i u
      cases ht'.symm.trans ht
      exact hf.append ha
    | raised u =>
      cases ht
      exact hf.append (.nil rfl rfl rfl)

/-! ## The shape of the list -/

/-- No access of the list is a write. -/
def OnlyReads (l : List Access) : Prop := ∀ acc ∈ l, isWrite acc = false

/-- No access of the list but the last is a write. -/
def WriteLast (l : List Access) : Prop := ∀ acc ∈ l.dropLast, isWrite acc = false

theorem OnlyReads.append {l l' : List Access} (h : OnlyReads l) (h' : OnlyReads l') : OnlyReads (l ++ l') :=
  fun acc hacc => (List.mem_append.1 hacc).elim (h acc) (h' acc)

theorem OnlyReads.writeLast {l : List Access} (h : OnlyReads l) : WriteLast l :=
  fun acc hacc => h acc (List.mem_of_mem_dropLast hacc)

theorem OnlyReads.append_writeLast {l l' : List Access} (h : OnlyReads l) (h' : WriteLast l') : WriteLast (l ++ l') := by
  intro acc hacc
  cases l' with
  | nil => exact h.writeLast acc (by simpa using hacc)
  | cons b bs =>
    rw [List.dropLast_append_cons] at hacc
    exact (List.mem_append.1 hacc).elim (h acc) (h' acc)

/-- One access is its own last. -/
theorem writeLast_singleton (acc : Access) : WriteLast [acc] := by simp [WriteLast]

theorem onlyReads_nil : OnlyReads [] := by simp [OnlyReads]

theorem onlyReads_listRead (s : State) (a : Word) : OnlyReads (listRead s a) := by
  unfold listRead
  split <;> simp [OnlyReads, isWrite]

theorem onlyReads_listTwo (s : State) (a b : Word) : OnlyReads (listTwo s a b) := by
  unfold listTwo
  split
  · exact OnlyReads.append (l := [.read a]) (by simp [OnlyReads, isWrite]) (onlyReads_listRead s b)
  · exact onlyReads_nil

theorem length_listRead_le (s : State) (a : Word) : (listRead s a).length ≤ 1 := by
  unfold listRead
  split <;> simp

theorem length_listTwo_le (s : State) (a b : Word) : (listTwo s a b).length ≤ 2 := by
  unfold listTwo
  split
  · exact Nat.succ_le_succ (length_listRead_le s b)
  · exact Nat.zero_le 2

/-! ### The accesses of an instruction -/

theorem onlyReads_pointerAccesses (m : MemForm) (s : State) : OnlyReads (pointerAccesses m s) := by
  cases m
  case indX p => exact onlyReads_listTwo _ _ _
  case indY p => exact onlyReads_listTwo _ _ _
  all_goals exact onlyReads_nil

/-- The pointer reads a form makes at most. -/
def pointerReads : MemForm → Nat
  | .indX _ | .indY _ => 2
  | .zp _ | .zpX _ | .zpY _ | .abs _ | .absX _ | .absY _ => 0

theorem length_pointerAccesses_le (m : MemForm) (s : State) : (pointerAccesses m s).length ≤ pointerReads m := by
  cases m
  case indX p => exact length_listTwo_le _ _ _
  case indY p => exact length_listTwo_le _ _ _
  all_goals exact Nat.le_refl 0

/-- The accesses a use makes at most. -/
def DataUse.most : DataUse → Nat
  | .nothing => 0
  | .pointer _ => 2
  | .reads m => pointerReads m + 1
  | .writes m _ => pointerReads m + 1
  | .modifies m _ => pointerReads m + 2

/-- At most so many accesses, of which none but the last is a write. -/
def WriteLastWithin (n : Nat) (l : List Access) : Prop := WriteLast l ∧ l.length ≤ n

theorem writeLastWithin_nil (n : Nat) : WriteLastWithin n [] := ⟨onlyReads_nil.writeLast, Nat.zero_le n⟩

theorem WriteLastWithin.listAfter {α : Type} {n : Nat} {r : Attempt α} {rest : α → State → List Access}
    (h : ∀ v t, WriteLastWithin n (rest v t)) : WriteLastWithin n (r.listAfter rest) := by
  cases r with
  | done v t => exact h v t
  | raised t => exact writeLastWithin_nil n

/-- Accesses after the pointer reads of a form. -/
theorem WriteLastWithin.afterPointer {n : Nat} {l : List Access} (h : WriteLastWithin n l) (m : MemForm) (s : State) :
    WriteLastWithin (pointerReads m + n) (pointerAccesses m s ++ l) := by
  obtain ⟨hw, hn⟩ := h
  refine ⟨(onlyReads_pointerAccesses m s).append_writeLast hw, ?_⟩
  rw [List.length_append]
  exact Nat.add_le_add (length_pointerAccesses_le m s) hn

/-- The accesses of a use: the pointer reads, then a read, a write, or a read and a write. -/
theorem dataAccesses_within (u : DataUse) (s : State) : WriteLastWithin u.most (dataAccesses u s) := by
  cases u with
  | nothing => exact writeLastWithin_nil 0
  | pointer w => exact ⟨(onlyReads_listTwo _ _ _).writeLast, length_listTwo_le _ _ _⟩
  | reads m =>
    rw [dataAccesses_reads]
    exact .afterPointer (.listAfter fun ea _ => ⟨(onlyReads_listRead s ea).writeLast, length_listRead_le s ea⟩) m s
  | writes m v =>
    rw [dataAccesses_writes]
    refine .afterPointer (.listAfter fun ea _ => ?_) m s
    split
    · exact ⟨writeLast_singleton _, Nat.le_refl 1⟩
    · exact writeLastWithin_nil 1
  | modifies m g =>
    rw [dataAccesses_modifies]
    exact .afterPointer (.listAfter fun ea _ => .listAfter fun v _ =>
      ⟨by simp [WriteLast, isWrite], Nat.le_refl 2⟩) m s

/-- Five bytes are enough for an instruction and its accesses: no read-modify-write has a pointer. -/
theorem length_add_most_le (i : Instr) (s : State) : i.length + (dataUse i s).most ≤ 5 := by
  cases i <;> exact Nat.le_of_ble_eq_true rfl

/-! ### The fetches -/

theorem onlyReads_operandAccesses (e : Entry) (s : State) : OnlyReads (operandAccesses e s) := by
  cases e with
  | f1 i => exact onlyReads_nil
  | f2 f => exact onlyReads_listRead _ _
  | f3 f => exact onlyReads_listTwo _ _ _

theorem onlyReads_fetchAccesses (s : State) : OnlyReads (fetchAccesses s) := by
  rw [fetchAccesses_eq]
  refine (onlyReads_listRead s s.pc).append ?_
  cases fetch8 s.pc s with
  | raised t => exact onlyReads_nil
  | done op t =>
    rw [Attempt.listAfter]
    cases table op with
    | none => exact onlyReads_nil
    | some e => exact onlyReads_operandAccesses e t

theorem length_operandAccesses_le (e : Entry) (s : State) : (operandAccesses e s).length ≤ e.operandBytes := by
  cases e with
  | f1 i => exact Nat.le_refl 0
  | f2 f => exact length_listRead_le _ _
  | f3 f => exact length_listTwo_le _ _ _

/-- An instruction fetched by a table entry is as long as the entry says. -/
theorem length_of_fetchOperand {op : Byte} {e : Entry} (ht : table op = some e) {pc0 : Word} {s t : State} {i : Instr}
    (h : fetchOperand pc0 e s = .done i t) : i.length = 1 + e.operandBytes := by
  have hlen := table_length ht
  cases e with
  | f1 j => cases h; exact hlen
  | f2 f =>
    rw [fetchOperand] at h
    cases hf : fetch8 pc0 s <;> rw [hf] at h <;> cases h
    exact hlen _
  | f3 f =>
    rw [fetchOperand] at h
    cases hf : fetch16 pc0 s <;> rw [hf] at h <;> cases h
    exact hlen _

/-- At most three fetches, and of a decoded instruction at most its bytes. -/
theorem length_fetchAccesses_le (s : State) :
    (fetchAccesses s).length ≤ 3 ∧ ∀ i t, fetchInstr s = .done i t → (fetchAccesses s).length ≤ i.length := by
  have h1 := length_listRead_le s s.pc
  rw [fetchAccesses_eq, fetchInstr, List.length_append]
  cases fetch8 s.pc s with
  | raised t => exact ⟨by simp only [Attempt.listAfter, List.length_nil]; omega, fun i u h => by cases h⟩
  | done op t =>
    simp only [Attempt.listAfter, Attempt.andThen_done]
    cases ht : table op with
    | none => exact ⟨by simp only [Option.elim_none, List.length_nil]; omega, fun i u h => by cases h⟩
    | some e =>
      have he := length_operandAccesses_le e t
      have h2 : e.operandBytes ≤ 2 := by cases e <;> simp [Entry.operandBytes]
      simp only [Option.elim_some]
      exact ⟨by omega, fun i u h => by have := length_of_fetchOperand ht h; omega⟩

/-- The list of a step: at most five accesses, a write only as the last. -/
theorem stepAccesses_within (s : State) : WriteLastWithin 5 (stepAccesses s) := by
  cases hr : s.running with
  | false =>
    rw [stepAccesses_halted hr]
    exact writeLastWithin_nil 5
  | true =>
    obtain ⟨h3, hi⟩ := length_fetchAccesses_le s
    have hreads := onlyReads_fetchAccesses s
    rw [stepAccesses_running hr]
    cases hf : fetchInstr s with
    | raised t =>
      rw [Attempt.listAfter, List.append_nil]
      exact ⟨hreads.writeLast, by omega⟩
    | done i t =>
      obtain ⟨hw, hn⟩ := dataAccesses_within (dataUse i t) t
      have hlen := hi i t hf
      have hmost := length_add_most_le i t
      refine ⟨hreads.append_writeLast hw, ?_⟩
      rw [Attempt.listAfter, List.length_append]
      omega

/-- Settles O57: what the list accounts for is joined along the parts of the step; its shape is that of its parts. -/
theorem accessListAccountsForTheStep : Obligations.AccessListAccountsForTheStep := by
  intro s t ht
  have h := step_accounts ht
  obtain ⟨hw, hn⟩ := stepAccesses_within s
  exact ⟨h.mem, h.draws, h.inBounds, hn, hw⟩

end Sys2Proof.Machine
end

section
/-! SUPPORT. Memory as its readers and writers see it: the engine's reads and writes, the host's, the bulk write position by
position, and what an instruction leaves of memory and control where every cell it touches exists. -/

open Sys2Proof Sys2Proof.Machine Sys2Proof.Claims

namespace Sys2Proof.Machine

/-! ## The engine's reads and writes -/

/-- A read of the trap address in bounds is a draw (R44). -/
theorem memRead_trap {pc0 : Word} {s : State} (h : s.validAddr Config.trapAddr) :
    memRead pc0 Config.trapAddr s = .done (Config.draw s.draws) s.drew := by
  rw [memRead_valid h, State.peek, State.afterRead, if_pos rfl, if_pos rfl]

/-- A read of any other address in bounds is the stored byte, with no effect. -/
theorem memRead_of_ne_trap {pc0 a : Word} {s : State} (h : s.validAddr a) (ha : a ≠ Config.trapAddr) :
    memRead pc0 a s = .done (s.mem.read a.toNat) s := by
  rw [memRead_valid h, State.peek_of_ne ha, State.afterRead_of_ne ha]

theorem memRead_completes_iff {pc0 a : Word} {s : State} : (∃ v t, memRead pc0 a s = .done v t) ↔ s.validAddr a := by
  refine ⟨fun ⟨v, t, h⟩ => ?_, fun h => ⟨_, _, memRead_valid h⟩⟩
  by_contra hv
  rw [memRead_invalid hv] at h
  cases h

theorem memWrite_completes_iff {pc0 a : Word} {v : Byte} {s : State} :
    (∃ t, memWrite pc0 a v s = .done () t) ↔ s.validAddr a := by
  refine ⟨fun ⟨t, h⟩ => ?_, fun h => ⟨_, memWrite_valid h⟩⟩
  by_contra hv
  rw [memWrite_invalid hv] at h
  cases h

/-- Settles O4, by the bounds check, then the trap address. -/
theorem memReadChecksBoundsThenTrap : Obligations.MemReadChecksBoundsThenTrap := by
  refine fun pc0 a s => ⟨fun h => memRead_invalid (Nat.not_lt.2 h), fun h ha => ?_, memRead_of_ne_trap⟩
  subst ha
  exact memRead_trap h

/-- Settles O5: the memory written is `Memory.write`, whose reads are known; reading the address back is a read in bounds of the
state it leaves. -/
theorem memWriteStoresOneByte : Obligations.MemWriteStoresOneByte := by
  refine fun pc0 a v s hwf => ⟨fun h => memWrite_invalid (Nat.not_lt.2 h), fun h => ?_⟩
  refine ⟨s.mem.write a.toNat v, memWrite_valid h, Memory.read_write_same hwf _ v, fun b => Memory.read_write_ne _ v,
    Memory.write_wf hwf _ v, fun pc1 ha => ?_, fun pc1 ha => ?_⟩
  · have hr := memRead_of_ne_trap (pc0 := pc1) (s := s.setMem (s.mem.write a.toNat v)) h ha
    rwa [State.setMem_mem, Memory.read_write_same hwf] at hr
  · subst ha
    exact memRead_trap (s := s.setMem _) h

/-! ## Validity and the memory size -/

/-- With every address in memory, a step of a state with no latched fault latches no `OutOfBounds`. -/
theorem step_fault_ne_outOfBounds {s t : State} (hv : ∀ a, s.validAddr a) (hf : s.fault = none) (h : step s = .next t)
    (a pc : Word) : t.fault ≠ some (.outOfBounds a pc) := by
  cases hr : s.running with
  | false =>
    rw [step_halted hr] at h
    cases h
    simp [hf]
  | true =>
    rcases step_cases hr with ⟨i, n, t', -, hs, hk⟩ | ⟨b, pc', n, hb, -⟩ | ⟨op, n, -, hs⟩
    · cases hs.symm.trans h
      have : t.fault = none := hk.fault.trans hf
      simp [this]
    · exact absurd (hv b) hb
    · cases hs.symm.trans h
      simp

/-- Settles O6: the bounds check decides completion, and a 16-bit address is below 65536. -/
theorem validityIsTheMemorySize : Obligations.ValidityIsTheMemorySize := by
  have hall (s : State) (a : Word) (hs : s.memSize = 65536) : s.validAddr a := by
    rw [State.validAddr, hs]
    exact a.isLt
  refine ⟨fun _ _ _ => memRead_completes_iff, fun _ _ _ _ => memWrite_completes_iff, fun s a hs => ?_, hall,
    fun s t a pc hs hf h => step_fault_ne_outOfBounds (hall s · hs) hf h a pc⟩
  rw [State.validAddr, hs]
  bv_omega

/-! ## The host's reads and writes -/

theorem hostCell_inside {size : Nat} {a : Int} (h0 : 0 ≤ a) (h : a < size) : hostCell size a = some a.toNat :=
  if_pos ⟨h0, h⟩

theorem hostCell_outside {size : Nat} {a : Int} (h : ¬ (0 ≤ a ∧ a < size)) : hostCell size a = none := if_neg h

theorem hostRead_outside {size : Nat} {a : Int} (h : ¬ (0 ≤ a ∧ a < size)) (m : Memory) (drawn : Byte) :
    hostRead size m drawn a = .outOfBounds a := by
  rw [hostRead, hostCell_outside h]

theorem hostRead_inside {size : Nat} {a : Int} (h0 : 0 ≤ a) (h : a < size) (m : Memory) (drawn : Byte) :
    hostRead size m drawn a = .byte (if a = 0xFE then drawn else m.read a.toNat) := by
  have htrap : a.toNat = Config.trapAddr.toNat ↔ a = 0xFE := by
    change a.toNat = 254 ↔ a = 254
    omega
  simp only [hostRead, hostCell_inside h0 h, htrap]
  split <;> rfl

theorem hostWrite_outside {size : Nat} {a : Int} (h : ¬ (0 ≤ a ∧ a < size)) (m : Memory) (v : Byte) :
    hostWrite size m a v = ⟨m, some a⟩ := by
  rw [hostWrite, hostCell_outside h]

theorem hostWrite_inside {size : Nat} {a : Int} (h0 : 0 ≤ a) (h : a < size) (m : Memory) (v : Byte) :
    hostWrite size m a v = ⟨m.write a.toNat v, none⟩ := by
  rw [hostWrite, hostCell_inside h0 h]

/-- A write by the host is seen by no host read of another address. -/
theorem hostRead_hostWrite_ne {size : Nat} {a b : Int} (h0 : 0 ≤ a) (h : a < size) (hba : b ≠ a) (m : Memory)
    (v drawn : Byte) : hostRead size (hostWrite size m a v).mem drawn b = hostRead size m drawn b := by
  by_cases hb : 0 ≤ b ∧ b < size
  · obtain ⟨hb0, hbs⟩ := hb
    have hne : b.toNat ≠ a.toNat := by omega
    rw [hostRead_inside hb0 hbs, hostRead_inside hb0 hbs, hostWrite_inside h0 h, Memory.read_write_ne m v hne]
  · rw [hostRead_outside hb, hostRead_outside hb]

/-- Settles O7, by the host's bounds check. -/
theorem hostAccessIsBoundsChecked : Obligations.HostAccessIsBoundsChecked := by
  refine fun size m a v drawn hwf => ⟨fun h => ?_, fun h0 h =>
    ⟨?_, ?_, fun b hb => hostRead_hostWrite_ne h0 h hb m v drawn⟩⟩
  · have hout : ¬ (0 ≤ a ∧ a < size) := by omega
    exact ⟨hostRead_outside hout m drawn, hostWrite_outside hout m v⟩
  · rw [hostWrite_inside h0 h]
  · rw [hostRead_inside h0 h, hostWrite_inside h0 h, Memory.read_write_same hwf]

/-! ## The bulk write and fill -/

theorem writeBulk_cons_outside {size : Nat} {a : Int} (h : ¬ (0 ≤ a ∧ a < size)) (m : Memory) (v : Byte) (vs : List Byte) :
    writeBulk size m a (v :: vs) = ⟨m, some a⟩ := by
  rw [writeBulk, hostWrite_outside h]

theorem writeBulk_cons_inside {size : Nat} {a : Int} (h0 : 0 ≤ a) (h : a < size) (m : Memory) (v : Byte) (vs : List Byte) :
    writeBulk size m a (v :: vs) = writeBulk size (m.write a.toNat v) (a + 1) vs := by
  rw [writeBulk, hostWrite_inside h0 h]

/-- A bulk write of `bytes` at `a` over `m` that ended in `r` has written its first `n` positions and stopped there. -/
structure WrotePrefix (size : Nat) (m : Memory) (a : Int) (bytes : List Byte) (n : Nat) (r : HostWrite) : Prop where
  le : n ≤ bytes.length
  inside : ∀ i : Nat, i < n → 0 ≤ a + i ∧ a + i < size
  stop : n < bytes.length → ¬ (0 ≤ a + n ∧ a + n < size)
  failed : r.failed = if n < bytes.length then some (a + n) else none
  written : ∀ i : Nat, i < n → r.mem.read (a + i).toNat = bytes.getD i 0
  kept : ∀ k : Nat, (∀ i : Nat, i < n → (k : Int) ≠ a + i) → r.mem.read k = m.read k

namespace WrotePrefix

variable {size : Nat} {m : Memory} {a : Int} {v : Byte} {bytes : List Byte}

/-- Nothing to write. -/
theorem nil : WrotePrefix size m a [] 0 ⟨m, none⟩ := by
  constructor <;> simp

/-- The first position fails. -/
theorem outside (h : ¬ (0 ≤ a ∧ a < size)) : WrotePrefix size m a (v :: bytes) 0 ⟨m, some a⟩ where
  le := Nat.zero_le _
  inside i hi := absurd hi (Nat.not_lt_zero i)
  stop _ := by simpa using h
  failed := by simp
  written i hi := absurd hi (Nat.not_lt_zero i)
  kept _ _ := rfl

/-- The first position is written, and then some first positions of the rest, which do not touch it. -/
theorem cons {n : Nat} {r : HostWrite} (hwf : m.wf) (h0 : 0 ≤ a) (h : a < size)
    (hr : WrotePrefix size (m.write a.toNat v) (a + 1) bytes n r) : WrotePrefix size m a (v :: bytes) (n + 1) r where
  le := Nat.succ_le_succ hr.le
  inside
    | 0, _ => by omega
    | i + 1, hi => by have := hr.inside i (by omega); omega
  stop hn := by have := hr.stop (Nat.lt_of_succ_lt_succ hn); omega
  failed := by
    have hshift : a + (n + 1 : Nat) = a + 1 + n := by omega
    rw [hr.failed, hshift, List.length_cons]
    simp only [Nat.add_lt_add_iff_right]
  written
    | 0, _ => by
      have hfirst : (a + (0 : Nat)).toNat = a.toNat := by omega
      rw [hfirst, hr.kept _ fun i _ => by omega, Memory.read_write_same hwf, List.getD_cons_zero]
    | i + 1, hi => by
      have hshift : a + (i + 1 : Nat) = a + 1 + i := by omega
      rw [hshift, hr.written i (Nat.lt_of_succ_lt_succ hi), List.getD_cons_succ]
  kept k hk := by
    have hne : k ≠ a.toNat := by have := hk 0 (Nat.succ_pos n); omega
    rw [hr.kept k fun i hi => by have := hk (i + 1) (Nat.succ_lt_succ hi); omega, Memory.read_write_ne m v hne]

end WrotePrefix

/-- Every bulk write writes its first positions, up to the first that fails. -/
theorem writeBulk_wrotePrefix {size : Nat} {m : Memory} (hwf : m.wf) (a : Int) (bytes : List Byte) :
    ∃ n, WrotePrefix size m a bytes n (writeBulk size m a bytes) := by
  induction bytes generalizing m a with
  | nil => exact ⟨0, .nil⟩
  | cons v vs ih =>
    by_cases h : 0 ≤ a ∧ a < size
    · obtain ⟨h0, hs⟩ := h
      obtain ⟨n, hn⟩ := ih (Memory.write_wf hwf a.toNat v) (a + 1)
      rw [writeBulk_cons_inside h0 hs]
      exact ⟨n + 1, .cons hwf h0 hs hn⟩
    · rw [writeBulk_cons_outside h]
      exact ⟨0, .outside h⟩

/-- Settles O8, by induction on the bytes: each position in bounds is written before the rest. -/
theorem writeBulkStopsAtFirstFailure : Obligations.WriteBulkStopsAtFirstFailure := by
  intro size m a bytes hwf
  obtain ⟨n, h⟩ := writeBulk_wrotePrefix (size := size) hwf a bytes
  exact ⟨n, h.le, h.inside, h.stop, h.failed, h.written, h.kept⟩

/-- Settles O9: a bulk write with every position in bounds stops nowhere, and all its bytes are the same. -/
theorem fillWritesCountPlusOneCells : Obligations.FillWritesCountPlusOneCells := by
  intro size m a count v hwf h0 h
  obtain ⟨n, hp⟩ := writeBulk_wrotePrefix (size := size) hwf a (List.replicate (count + 1) v)
  rw [← fill] at hp
  have hlen : (List.replicate (count + 1) v).length = count + 1 := List.length_replicate
  obtain rfl : n = count + 1 := by
    have hle := hp.le
    have hstop := hp.stop
    omega
  refine ⟨by rw [hp.failed, if_neg (by omega)], fun k => ?_⟩
  split
  · rename_i hk
    obtain ⟨i, hi⟩ : ∃ i : Nat, (k : Int) = a + i := ⟨(k - a).toNat, by omega⟩
    have hlt : i < count + 1 := by omega
    have hw := hp.written i hlt
    rwa [← hi, Int.toNat_natCast, List.getD_replicate _ hlt] at hw
  · exact hp.kept k fun i hi => by omega

/-! ## What an instruction leaves of memory -/

/-- An instruction keeps memory, or it is a storing one and writes one byte at the address its operand resolves to, in bounds. -/
theorem exec_mem_cases {i : Instr} {s t : State} (h : exec i s = .next t) :
    t.mem = s.mem ∨ ∃ m ea u v, memFormOf i = some m ∧ i.mnemonic ∈ storing ∧
      resolve (start i s) m s = .done ea u ∧ s.validAddr ea ∧ t.mem = s.mem.write ea.toNat v := by
  rcases exec_next_cases h with hk | ⟨a, n, -, rfl⟩
  · rcases hk.mem with hm | ⟨m, ea, n, v, hform, hstores, hres, hv, hm⟩
    · exact .inl hm
    · rw [formLength_eq hform] at hres
      exact .inr ⟨m, ea, _, v, hform, hstores, hres, hv, hm⟩
  · exact .inl rfl

/-- Settles O50: memory is kept, or the one write is at the address resolved, which is in bounds. -/
theorem otherBytesOfMemoryAreUntouched : Obligations.OtherBytesOfMemoryAreUntouched := by
  intro i s t h
  rcases exec_mem_cases h with hm | ⟨m, ea, u, v, hform, hstores, hres, hv, hm⟩ <;> rw [hm]
  · exact ⟨fun _ _ => rfl, fun _ _ => ⟨fun _ _ _ _ _ => rfl, fun _ _ _ _ _ => rfl, fun _ _ _ => rfl⟩⟩
  · refine ⟨fun hno => ?_, fun m' hm' => ?_⟩
    · exact hno.elim (absurd hstores) fun hacc => absurd hacc (form_not_plain hform).2
    · obtain rfl : m = m' := Option.some.inj (hform.symm.trans hm')
      rw [hres]
      refine ⟨fun ea' u' he b hb => ?_, fun ea' u' he hn => ?_, fun u' he => by cases he⟩ <;> cases he
      · exact Memory.read_write_ne _ v hb
      · exact absurd hv hn

/-! ## Completion -/

/-- A reachable operand resolves to an address in bounds, having changed nothing but the draw counter. -/
theorem resolve_of_reachable {m : MemForm} {s : State} (h : reachable m s = true) :
    ∃ ea n, resolve (instrStart (formLength m) s) m s = .done ea (s.atDraws n) ∧ s.validAddr ea := by
  rw [reachable] at h
  rcases resolve_cases (instrStart (formLength m) s) m s with ⟨ea, n, hr⟩ | ⟨a, n, hr, -⟩ <;> rw [hr] at h
  · exact ⟨ea, n, hr, of_decide_eq_true h⟩
  · cases h

/-- A body that touches neither FAULT nor RUNNING. -/
def KeepsControl (f : State → State) : Prop := ∀ s, (f s).fault = s.fault ∧ (f s).running = s.running

/-- The result is a next state with FAULT and RUNNING as in `s`. -/
def Completes (s : State) (r : StepResult) : Prop := ∃ t, r = .next t ∧ t.fault = s.fault ∧ t.running = s.running

theorem readThen_completes {m : MemForm} {s : State} {f : Byte → State → State} (h : reachable m s = true)
    (hf : ∀ v, KeepsControl (f v)) : Completes s (readThen m f s) := by
  obtain ⟨ea, n, hr, hv⟩ := resolve_of_reachable h
  refine ⟨_, readThen_done f hr hv, ?_⟩
  rw [State.afterRead_eq]
  exact hf _ _

theorem storeByte_completes {m : MemForm} {s : State} (h : reachable m s = true) (v : Byte) :
    Completes s (storeByte m v s) := by
  obtain ⟨ea, n, hr, hv⟩ := resolve_of_reachable h
  exact ⟨_, storeByte_done v hr hv, rfl, rfl⟩

theorem modifyThen_completes {m : MemForm} {s : State} {f : Byte → State → State} (h : reachable m s = true)
    (g : Byte → Byte) (hf : ∀ v, KeepsControl (f v)) : Completes s (modifyThen m g f s) := by
  obtain ⟨ea, n, hr, hv⟩ := resolve_of_reachable h
  refine ⟨_, modifyThen_done g f hr hv, ?_⟩
  rw [State.afterRead_eq]
  exact hf _ _

/-- A memory form of any mnemonic completes where its operand is reachable. -/
theorem memBehaviour_completes (n : Mnemonic) {m : MemForm} {s : State} (h : reachable m s = true) :
    Completes s ((memBehaviour n m).run s) := by
  cases n
  case lda | ldx | ora | and | adc | cmp => exact readThen_completes h fun v s => ⟨rfl, rfl⟩
  case sta | stx => exact storeByte_completes h _
  case asl | inc | dec => exact modifyThen_completes h _ fun v s => ⟨rfl, rfl⟩
  all_goals exact ⟨s, rfl, rfl, rfl⟩

/-- Settles O52, by the kind of operand: a cell, the pointer of JMP IND, or none in memory. -/
theorem reachableInstructionsComplete : Obligations.ReachableInstructionsComplete := by
  intro i s hform hptr
  cases hm : memFormOf i with
  | some m =>
    obtain ⟨t, ht, hf, hr⟩ := memBehaviour_completes i.mnemonic (hform m hm)
    rw [exec_eq_run, behaviour_of_form hm]
    exact ⟨t, ht, hf, fun _ => hr⟩
  | none =>
    by_cases hj : ∃ w, i = .jmpInd w
    · obtain ⟨w, rfl⟩ := hj
      obtain ⟨hw, hw1⟩ := hptr w rfl
      rcases jmpInd_cases w s with ⟨t, n, -, -, -, -, h⟩ | ⟨a, n, hna, -, ha⟩
      · exact ⟨_, h, rfl, fun _ => rfl⟩
      · rcases ha with ⟨rfl, -⟩ | ⟨rfl, -⟩
        · exact absurd hw hna
        · exact absurd hw1 hna
    · obtain ⟨t, ht, hk⟩ := exec_plain_cases hm (fun w h => hj ⟨w, h⟩) s
      exact ⟨t, ht, hk.fault, hk.running⟩

end Sys2Proof.Machine
end

section
/-! SUPPORT. Decoding and encoding: which operand bytes an opcode byte takes and what instruction it makes of them, the
instruction's encoding as those same bytes, the table as a list of pairs, and the operand bytes of a memory form. -/

open Sys2Proof Sys2Proof.Machine Sys2Proof.Claims

namespace Sys2Proof.Machine

/-! ## Reading an instruction through the table -/

/-- The table's entry at `op` makes the instruction of these operand bytes, a word's low byte first (R73, R74). -/
inductive Reads (op : Byte) : List Byte → Instr → Prop where
  | f1 {i : Instr} (h : table op = some (.f1 i)) : Reads op [] i
  | f2 {f : Byte → Instr} (h : table op = some (.f2 f)) (b : Byte) : Reads op [b] (f b)
  | f3 {f : Word → Instr} (h : table op = some (.f3 f)) (w : Word) : Reads op [loByte w, hiByte w] (f w)

/-- Two bytes in a row are the bytes of the word they make. -/
theorem Reads.f3_bytes {op : Byte} {f : Word → Instr} (h : table op = some (.f3 f)) (lo hi : Byte) :
    Reads op [lo, hi] (f (mk16 hi lo)) := by
  have hr := Reads.f3 h (mk16 hi lo)
  rwa [loByte_mk16, hiByte_mk16] at hr

theorem Reads.table_isSome {op : Byte} {operand : List Byte} {i : Instr} (h : Reads op operand i) :
    (table op).isSome = true := by
  cases h <;> simp [*]

/-- What the decoder makes of an opcode byte, its operand bytes and a rest. -/
theorem decode_of_reads {op : Byte} {operand : List Byte} {i : Instr} (h : Reads op operand i) (rest : List Byte) :
    decode (op :: operand ++ rest) = .instr i rest := by
  cases h with
  | f1 h => simp [decode, h]
  | f2 h b => simp [decode, h]
  | f3 h w => simp [decode, h]

/-- The decoder answers an instruction only where the bytes begin with an opcode byte and operand bytes that make it. -/
theorem reads_of_decode {bytes rest : List Byte} {i : Instr} (h : decode bytes = .instr i rest) :
    ∃ op operand, Reads op operand i ∧ bytes = op :: operand ++ rest := by
  unfold decode at h
  split at h
  · cases h
  · split at h
    · cases h
    · rename_i ht
      cases h
      exact ⟨_, _, .f1 ht, rfl⟩
    · rename_i ht
      split at h <;> cases h
      exact ⟨_, _, .f2 ht _, rfl⟩
    · rename_i ht
      split at h <;> cases h
      exact ⟨_, _, .f3_bytes ht _ _, rfl⟩

/-! ## The encoder and the table -/

/-- The entry at `op` builds instructions whose encoding is `op` and their operand bytes. -/
def EncodesAs (op : Byte) : Entry → Prop
  | .f1 i => encode i = [op]
  | .f2 f => ∀ b, encode (f b) = [op, b]
  | .f3 f => ∀ w, encode (f w) = [op, loByte w, hiByte w]

/-- R74, R76, R77: the table and the encoder give every instruction the same opcode byte. -/
theorem table_encodesAs {op : Byte} {e : Entry} (h : table op = some e) : EncodesAs op e := by
  have hop : op = BitVec.ofNat 8 op.toNat := by simp
  unfold table at h
  split at h <;> rename_i hn <;> cases h <;> rw [hop, hn]
  all_goals simp [EncodesAs, encode]

theorem encode_of_reads {op : Byte} {operand : List Byte} {i : Instr} (h : Reads op operand i) :
    encode i = op :: operand := by
  cases h with
  | f1 h => exact table_encodesAs h
  | f2 h b => exact table_encodesAs h b
  | f3 h w => exact table_encodesAs h w

/-- The encoding of every instruction is an opcode byte and operand bytes that make it, by the shapes F1, F3 and F2 of R71. -/
theorem reads_encode (i : Instr) : ∃ op operand, encode i = op :: operand ∧ Reads op operand i := by
  cases i
  case tax | txa | tay | tya | aslAcc | inx | iny | nop | brk => exact ⟨_, _, rfl, .f1 rfl⟩
  case ldaAbs | ldxAbs | staAbs | stxAbs | oraAbs | andAbs | aslAbs | adcAbs | cmpAbs | incAbs | decAbs | jmpAbs |
    ldaAbsX | staAbsX | oraAbsX | andAbsX | aslAbsX | adcAbsX | cmpAbsX | incAbsX | decAbsX |
    ldaAbsY | ldxAbsY | staAbsY | oraAbsY | andAbsY | adcAbsY | cmpAbsY | jmpInd => exact ⟨_, _, rfl, .f3 rfl _⟩
  all_goals exact ⟨_, _, rfl, .f2 rfl _⟩

/-- Settles O10: the decoder answers what the table makes of an opcode byte and its operand bytes, and those bytes are the
instruction's encoding. -/
theorem decodeAndEncodeAgree : Obligations.DecodeAndEncodeAgree := by
  intro bytes i rest
  constructor
  · intro h
    obtain ⟨op, operand, hr, rfl⟩ := reads_of_decode h
    rw [encode_of_reads hr]
  · rintro rfl
    obtain ⟨op, operand, he, hr⟩ := reads_encode i
    rw [he, decode_of_reads hr]

/-- Settles O13: with an entry the two bytes are enough operand for any of the three shapes; without one the byte is
unmapped. -/
theorem operandBytesNeverMakeAnInstructionIllegal : Obligations.OperandBytesNeverMakeAnInstructionIllegal := by
  intro op b1 b2
  constructor
  · rintro ⟨i, rest, h⟩
    obtain ⟨op', operand, hr, hb⟩ := reads_of_decode h
    obtain ⟨rfl, -⟩ := List.cons.inj hb
    exact hr.table_isSome
  · intro h
    obtain ⟨e, he⟩ := Option.isSome_iff_exists.1 h
    cases e with
    | f1 i => exact ⟨i, [b1, b2], decode_of_reads (.f1 he) _⟩
    | f2 f => exact ⟨f b1, [b2], decode_of_reads (.f2 he b1) _⟩
    | f3 f => exact ⟨f (mk16 b2 b1), [], decode_of_reads (.f3_bytes he b1 b2) _⟩

/-! ## The table as a list of pairs -/

/-- The 256 bytes, in order. -/
def allBytes : List Byte := (List.range 256).map (BitVec.ofNat 8)

theorem mem_allBytes (op : Byte) : op ∈ allBytes :=
  List.mem_map.2 ⟨op.toNat, List.mem_range.2 op.isLt, by simp⟩

/-- The pair at an opcode byte, if its entry is filled (R74). -/
def pairAt (op : Byte) : Option (Mnemonic × Mode) := (table op).map Entry.pair

/-- The opcode bytes with a filled entry, in order. -/
def filledBytes : List Byte := allBytes.filter fun op => (pairAt op).isSome

theorem mem_filledBytes {op : Byte} {p : Mnemonic × Mode} (h : pairAt op = some p) : op ∈ filledBytes :=
  List.mem_filter.2 ⟨mem_allBytes op, by rw [h]; rfl⟩

/-- The table holds no pair twice. -/
theorem tablePairs_nodup : (filledBytes.map pairAt).Nodup := by decide

/-- A pair stands at one opcode byte only. -/
theorem pairAt_injective {op op' : Byte} {p : Mnemonic × Mode} (h : pairAt op = some p) (h' : pairAt op' = some p) :
    op' = op :=
  List.inj_on_of_nodup_map tablePairs_nodup (mem_filledBytes h') (mem_filledBytes h) (h'.trans h.symm)

/-- The table holds every pair of R76. -/
theorem exists_pairAt {m : Mnemonic} {mode : Mode} (h : pairDefined m mode = true) : ∃ op, pairAt op = some (m, mode) := by
  have hall : ∀ mode ∈ m.modes, some (m, mode) ∈ filledBytes.map pairAt := by cases m <;> decide
  obtain ⟨op, -, hop⟩ := List.mem_map.1 (hall mode (List.contains_iff_mem.1 h))
  exact ⟨op, hop⟩

/-- Every instruction is well formed: its constructor names a pair of R76. -/
theorem wellFormed_instr (i : Instr) : i.wellFormed = true := by cases i <;> rfl

/-- The pair of an entry is that of an instruction, so one of R76. -/
theorem pairDefined_entry (e : Entry) : pairDefined e.pair.1 e.pair.2 = true := by
  cases e with
  | f1 i => exact wellFormed_instr i
  | f2 f => exact wellFormed_instr (f 0)
  | f3 f => exact wellFormed_instr (f 0)

/-- Settles O11: an entry builds instructions, whose pairs are of R76; the list of the table's pairs has each of R76, and none twice. -/
theorem tableHoldsEachPairOnce : Obligations.TableHoldsEachPairOnce := by
  refine ⟨fun op e _ => pairDefined_entry e, fun m mode h => ?_⟩
  obtain ⟨op, hop⟩ := exists_pairAt h
  exact ⟨op, hop, fun op' => pairAt_injective hop⟩

/-- Settles O14, by counting over the 256 bytes. -/
theorem opcodeBytesSplitEightySeventyOneHundredFive : Obligations.OpcodeBytesSplitEightySeventyOneHundredFive := by
  unfold Obligations.OpcodeBytesSplitEightySeventyOneHundredFive
  decide

/-- Settles O15, by decoding the words. -/
theorem spelledOutWordsDecode : Obligations.SpelledOutWordsDecode := by
  unfold Obligations.SpelledOutWordsDecode
  decide

/-! ## Memory forms -/

/-- The mode of a memory form. -/
def formMode : MemForm → Mode
  | .zp _ => .zp
  | .zpX _ => .zpX
  | .zpY _ => .zpY
  | .abs _ => .abs
  | .absX _ => .absX
  | .absY _ => .absY
  | .indX _ => .indX
  | .indY _ => .indY

/-- The operand bytes of a memory form, a word's low byte first (R46, R73). -/
def formBytes : MemForm → List Byte
  | .zp b | .zpX b | .zpY b | .indX b | .indY b => [b]
  | .abs w | .absX w | .absY w => [loByte w, hiByte w]

/-- An instruction with a memory form has the form's mode and operand bytes. -/
theorem mode_and_bytes_of_form {i : Instr} {m : MemForm} (h : memFormOf i = some m) :
    i.mode = formMode m ∧ (encode i).tail = formBytes m := by
  cases i <;> cases h <;> exact ⟨rfl, rfl⟩

/-- An instruction without a memory form names no data cell by its mode, or is JMP. -/
theorem mode_of_no_form {i : Instr} (h : memFormOf i = none) :
    i.mode ∈ [Mode.imp, .acc, .imm, .ind, .rel] ∨ i.mnemonic = .jmp := by
  cases i <;> cases h <;> simp [Instr.mode, Instr.mnemonic]

theorem formMode_not_mem (m : MemForm) : formMode m ∉ [Mode.imp, .acc, .imm, .ind, .rel] := by
  cases m <;> simp [formMode]

/-- A word is its high byte times 256 plus its low byte. -/
theorem toNat_eq_bytes (w : Word) : w.toNat = (hiByte w).toNat * 256 + (loByte w).toNat := by
  rw [← mk16_toNat, mk16_bytes]

/-- Settles O12: the form has the instruction's mode and operand bytes, and an instruction with a form is of a mode and a
mnemonic that the list leaves out. -/
theorem memoryFormsAreTheOperandBytes : Obligations.MemoryFormsAreTheOperandBytes := by
  refine ⟨fun i m h => ?_, fun i => ⟨mode_of_no_form, fun hno => ?_⟩⟩
  · obtain ⟨hmode, hbytes⟩ := mode_and_bytes_of_form h
    cases m with
    | zp | zpX | zpY | indX | indY => exact ⟨hmode, hbytes⟩
    | abs w | absX w | absY w => exact ⟨hmode, _, _, hbytes, toNat_eq_bytes w⟩
  · cases hm : memFormOf i with
    | none => rfl
    | some m =>
      rcases hno with hmode | hjmp
      · rw [(mode_and_bytes_of_form hm).1] at hmode
        exact absurd hmode (formMode_not_mem m)
      · have hmem := mnemonic_of_form hm
        rw [hjmp] at hmem
        exact absurd hmem (by decide)

end Sys2Proof.Machine
end

section
/-! SUPPORT. A step from its fetches on: what a fetch answers, which operand an opcode byte's mode makes of the bytes fetched,
the address a form resolves to, and an instruction run from its bytes in memory. -/

open Sys2Proof Sys2Proof.Machine Sys2Proof.Claims

namespace Sys2Proof.Machine

/-! ## Fetching -/

/-- Settles O16: a read that completes leaves PC, which the fetch then moves on; a read that raises ends the fetch. -/
theorem fetchEightReadsThenAdvancesPc : Obligations.FetchEightReadsThenAdvancesPc := by
  intro pc0 s
  rcases memRead_cases pc0 s.pc s with ⟨-, h⟩ | ⟨-, h⟩ <;> rw [h]
  · refine ⟨fun b t hd => ?_, nofun⟩
    cases hd
    exact ⟨s.pc + 1, BitVec.toNat_add _ _, by rw [fetch8, h]; rfl⟩
  · refine ⟨nofun, fun t hr => ?_⟩
    cases hr
    exact ⟨by rw [fetch8, h]; rfl, rfl⟩

theorem fetch16_done {pc0 : Word} {s t u : State} {lo hi : Byte} (h : fetch8 pc0 s = .done lo t)
    (h' : fetch8 pc0 t = .done hi u) : fetch16 pc0 s = .done (mk16 hi lo) u := by
  rw [fetch16, h, Attempt.andThen_done, h', Attempt.andThen_done]

/-- Settles O17: the word is made of the second byte and the first. -/
theorem fetchSixteenIsLittleEndian : Obligations.FetchSixteenIsLittleEndian := by
  refine fun pc0 s => ⟨fun lo hi t u h h' => ⟨mk16 hi lo, fetch16_done h h', mk16_toNat hi lo⟩, fun t h => ?_,
    fun lo t u h h' => ?_⟩
  · rw [fetch16, h, Attempt.andThen_raised]
  · rw [fetch16, h, Attempt.andThen_done, h', Attempt.andThen_raised]

/-! ## The operand of a mode -/

theorem fetchOperand_f2 {pc0 : Word} {s t : State} {b : Byte} (f : Byte → Instr) (h : fetch8 pc0 s = .done b t) :
    fetchOperand pc0 (.f2 f) s = .done (f b) t := by
  rw [fetchOperand, h, Attempt.andThen_done]

theorem fetchOperand_f3 {pc0 : Word} {s t : State} {w : Word} (f : Word → Instr) (h : fetch16 pc0 s = .done w t) :
    fetchOperand pc0 (.f3 f) s = .done (f w) t := by
  rw [fetchOperand, h, Attempt.andThen_done]

/-- The form of a page-zero mode on its operand byte (R97 to R99). -/
def zeroPageForm : Mode → Option (Byte → MemForm)
  | .zp => some .zp
  | .zpX => some .zpX
  | .zpY => some .zpY
  | _ => none

/-- An entry of a page-zero mode takes one byte and builds instructions of the mode's form on it. -/
theorem table_zeroPage {op : Byte} {e : Entry} {g : Byte → MemForm} (h : table op = some e)
    (hg : zeroPageForm e.pair.2 = some g) : ∃ f, e = .f2 f ∧ ∀ b, memFormOf (f b) = some (g b) := by
  unfold table at h
  split at h <;> cases h <;> cases hg <;> exact ⟨_, rfl, fun _ => rfl⟩

/-- An entry of mode ABS takes a word and builds instructions of that form on it, or JMP to it. -/
theorem table_abs {op : Byte} {e : Entry} (h : table op = some e) (hm : e.pair.2 = .abs) :
    ∃ f, e = .f3 f ∧ ∀ w, memFormOf (f w) = some (.abs w) ∨ f w = .jmpAbs w := by
  unfold table at h
  split at h <;> cases h <;> cases hm <;> exact ⟨_, rfl, fun w => by simp [memFormOf]⟩

theorem fetchOperand_zeroPage {op : Byte} {e : Entry} {g : Byte → MemForm} (h : table op = some e)
    (hg : zeroPageForm e.pair.2 = some g) (pc0 : Word) (s : State) (b : Byte) (t : State) (hf : fetch8 pc0 s = .done b t) :
    ∃ i, fetchOperand pc0 e s = .done i t ∧ memFormOf i = some (g b) := by
  obtain ⟨f, rfl, hform⟩ := table_zeroPage h hg
  exact ⟨f b, fetchOperand_f2 f hf, hform b⟩

/-- R76: only the rows of LDX and STX have ZPY. -/
theorem mnemonic_of_zpY {m : Mnemonic} (h : pairDefined m .zpY = true) : m = .ldx ∨ m = .stx := by
  revert h
  cases m <;> decide

/-- Settles O18: the three modes have a page-zero form each, and the index is added in a byte, so it wraps mod 256. -/
theorem zeroPageModesStayInPageZero : Obligations.ZeroPageModesStayInPageZero := by
  refine ⟨fun op e h => ⟨fun hm => ?_, fun hm => ?_, fun hm => ⟨?_, ?_⟩⟩, fun pc0 b s => ⟨?_, ?_, ?_⟩⟩
  · exact fetchOperand_zeroPage h (by rw [hm]; rfl)
  · exact fetchOperand_zeroPage h (by rw [hm]; rfl)
  · exact mnemonic_of_zpY (hm ▸ pairDefined_entry e)
  · exact fetchOperand_zeroPage h (by rw [hm]; rfl)
  · exact ⟨zext16 b, rfl, zext16_toNat b⟩
  · exact ⟨zext16 (b + s.x), rfl, by rw [zext16_toNat, BitVec.toNat_add]⟩
  · exact ⟨zext16 (b + s.y), rfl, by rw [zext16_toNat, BitVec.toNat_add]⟩

/-- Settles O19: the entry builds its instruction on the word fetched, and the form resolves to that word. -/
theorem absoluteModeIsTheOperandWord : Obligations.AbsoluteModeIsTheOperandWord := by
  refine ⟨fun op e h hm pc0 s w t hf => ?_, fun pc0 w s => rfl⟩
  obtain ⟨f, rfl, hform⟩ := table_abs h hm
  exact ⟨f w, fetchOperand_f3 f hf, hform w⟩

/-! ## Indexed and indirect addresses -/

/-- A word plus an index register, mod 2^16. -/
theorem toNat_add_zext16 (w : Word) (b : Byte) : (w + zext16 b).toNat = (w.toNat + b.toNat) % 65536 := by
  rw [BitVec.toNat_add, zext16_toNat]

/-- Settles O20: both forms add a zero-extended register to the word. -/
theorem indexedAbsoluteWrapsToSixteenBits : Obligations.IndexedAbsoluteWrapsToSixteenBits :=
  fun _ w s => ⟨⟨_, rfl, toNat_add_zext16 w s.x⟩, ⟨_, rfl, toNat_add_zext16 w s.y⟩⟩

theorem ofNat_toNat_eq_zext16 (p : Byte) : BitVec.ofNat 16 p.toNat = zext16 p := BitVec.ofNat_toNat 16 p

/-- The page-zero byte after `p`: its number wraps mod 256. -/
theorem ofNat_toNat_succ_eq_zext16 (p : Byte) : BitVec.ofNat 16 ((p.toNat + 1) % 256) = zext16 (p + 1) :=
  (congrArg (BitVec.ofNat 16) (BitVec.toNat_add p 1).symm).trans (ofNat_toNat_eq_zext16 (p + 1))

section ZeroPagePointer

variable {pc0 : Word} {p : Byte} {s : State}

theorem readZpPointer_done (hlo : s.validAddr (zext16 p)) (hhi : s.validAddr (zext16 (p + 1))) :
    readZpPointer pc0 p s = .done (mk16 ((s.afterRead (zext16 p)).peek (zext16 (p + 1))) (s.peek (zext16 p)))
      ((s.afterRead (zext16 p)).afterRead (zext16 (p + 1))) := by
  have hhi' : (s.afterRead (zext16 p)).validAddr (zext16 (p + 1)) := by rwa [State.validAddr, State.afterRead_memSize]
  rw [readZpPointer, memRead_valid hlo, Attempt.andThen_done, memRead_valid hhi', Attempt.andThen_done]

theorem readZpPointer_low_oob (hlo : ¬ s.validAddr (zext16 p)) :
    readZpPointer pc0 p s = .raised (s.takeFault (.outOfBounds (zext16 p) pc0)) := by
  rw [readZpPointer, memRead_invalid hlo, Attempt.andThen_raised]

theorem readZpPointer_high_oob (hlo : s.validAddr (zext16 p)) (hhi : ¬ s.validAddr (zext16 (p + 1))) :
    readZpPointer pc0 p s = .raised ((s.afterRead (zext16 p)).takeFault (.outOfBounds (zext16 (p + 1)) pc0)) := by
  have hhi' : ¬ (s.afterRead (zext16 p)).validAddr (zext16 (p + 1)) := by rwa [State.validAddr, State.afterRead_memSize]
  rw [readZpPointer, memRead_valid hlo, Attempt.andThen_done, memRead_invalid hhi', Attempt.andThen_raised]

end ZeroPagePointer

/-- Settles O21: INDX resolves to the word of the page-zero pointer at `b + X`. -/
theorem indexedIndirectReadsPageZeroPointer : Obligations.IndexedIndirectReadsPageZeroPointer := by
  intro pc0 b s p lo hi
  have hp : p = (b + s.x).toNat := (BitVec.toNat_add b s.x).symm
  have hlo : lo = zext16 (b + s.x) := (congrArg _ hp).trans (ofNat_toNat_eq_zext16 _)
  have hhi : hi = zext16 (b + s.x + 1) := by rw [← ofNat_toNat_succ_eq_zext16, ← hp]
  rw [hlo, hhi]
  exact ⟨fun h h' => ⟨_, readZpPointer_done h h', mk16_toNat _ _⟩, readZpPointer_low_oob, readZpPointer_high_oob⟩

/-- INDY goes on from its pointer with Y, which the pointer reads leave as it was. -/
theorem resolve_indY_done {pc0 : Word} {p : Byte} {s : State} (hlo : s.validAddr (zext16 p))
    (hhi : s.validAddr (zext16 (p + 1))) :
    resolve pc0 (.indY p) s =
      .done (mk16 ((s.afterRead (zext16 p)).peek (zext16 (p + 1))) (s.peek (zext16 p)) + zext16 s.y)
        ((s.afterRead (zext16 p)).afterRead (zext16 (p + 1))) := by
  have hy : ((s.afterRead (zext16 p)).afterRead (zext16 (p + 1))).y = s.y := by simp only [State.afterRead_eq, State.atDraws_y]
  rw [resolve, readZpPointer_done hlo hhi, Attempt.andThen_done, hy]

theorem resolve_indY_raised {pc0 : Word} {p : Byte} {s t : State} (h : readZpPointer pc0 p s = .raised t) :
    resolve pc0 (.indY p) s = .raised t := by
  rw [resolve, h, Attempt.andThen_raised]

/-- Settles O22: INDY resolves to the word of the page-zero pointer at its operand byte, plus Y. -/
theorem indirectIndexedAddsYToPointer : Obligations.IndirectIndexedAddsYToPointer := by
  intro pc0 b s lo hi
  have hlo : lo = zext16 b := ofNat_toNat_eq_zext16 b
  have hhi : hi = zext16 (b + 1) := ofNat_toNat_succ_eq_zext16 b
  rw [hlo, hhi]
  exact ⟨fun h h' => ⟨_, resolve_indY_done h h', by rw [toNat_add_zext16, mk16_toNat]⟩,
    fun h => resolve_indY_raised (readZpPointer_low_oob h),
    fun h h' => resolve_indY_raised (readZpPointer_high_oob h h')⟩

/-! ## The frame of PC -/

/-- Settles O49, from the two outcomes of an instruction: its frame, which latches no fault, or the state it started in with
a fault latched. -/
theorem onlyControlTransfersMovePc : Obligations.OnlyControlTransfersMovePc := by
  intro i s t h
  rcases exec_next_cases h with hk | ⟨a, n, -, rfl⟩
  · exact ⟨hk.pc, fun _ hf => absurd hk.fault hf⟩
  · exact ⟨fun _ => rfl, fun _ _ => rfl⟩

/-! ## An instruction run from its bytes -/

/-- The byte `b` stands at `a`, where a read returns it: in bounds and not at the trap address (R41, R44). -/
def Stands (s : State) (a : Word) (b : Byte) : Prop :=
  s.validAddr a ∧ a ≠ Config.trapAddr ∧ s.mem.read a.toNat = b

/-- The bytes stand at `a` and the addresses after it, mod 2^16 (R70). -/
def BytesStand (s : State) (a : Word) (bytes : List Byte) : Prop :=
  ∀ k, (h : k < bytes.length) → Stands s (a + BitVec.ofNat 16 k) bytes[k]

/-- An address past one byte and `k` more. -/
theorem add_one_add_ofNat (a : Word) (k : Nat) : a + 1 + BitVec.ofNat 16 k = a + BitVec.ofNat 16 (1 + k) := by
  rw [BitVec.add_assoc, BitVec.ofNat_add]
  rfl

theorem BytesStand.cons {s : State} {a : Word} {b : Byte} {bs : List Byte} (h : BytesStand s a (b :: bs)) :
    Stands s a b ∧ BytesStand s (a + 1) bs := by
  constructor
  · simpa using h 0 (Nat.succ_pos _)
  · intro k hk
    rw [add_one_add_ofNat, Nat.add_comm 1 k]
    exact h (k + 1) (Nat.succ_lt_succ hk)

theorem fetch8_of_stands {s : State} {b : Byte} (h : Stands s s.pc b) (pc0 : Word) :
    fetch8 pc0 s = .done b (s.setPC (s.pc + 1)) := by
  obtain ⟨hv, hne, hb⟩ := h
  rw [fetch8, memRead_valid hv, Attempt.andThen_done, State.peek_of_ne hne, State.afterRead_of_ne hne, hb]

/-- The operand bytes of an instruction, standing at PC, are fetched by the entry that makes the instruction of them. -/
theorem fetchOperand_of_reads {op : Byte} {operand : List Byte} {i : Instr} (hr : Reads op operand i) :
    ∃ e, table op = some e ∧ ∀ pc0 s, BytesStand s s.pc operand →
      fetchOperand pc0 e s = .done i (s.setPC (s.pc + BitVec.ofNat 16 operand.length)) := by
  cases hr with
  | f1 h => exact ⟨_, h, fun pc0 s _ => by simp [fetchOperand, State.setPC]⟩
  | f2 h b => exact ⟨_, h, fun pc0 s hb => fetchOperand_f2 _ (fetch8_of_stands hb.cons.1 pc0)⟩
  | @f3 f h w =>
    refine ⟨_, h, fun pc0 s hb => ?_⟩
    obtain ⟨hlo, hrest⟩ := hb.cons
    have h1 := fetch8_of_stands hlo pc0
    have h2 := fetch8_of_stands (s := s.setPC (s.pc + 1)) hrest.cons.1 pc0
    have hpc : s.pc + 1 + 1 = s.pc + BitVec.ofNat 16 2 := add_one_add_ofNat s.pc 1
    rw [fetchOperand_f3 f (fetch16_done h1 h2), mk16_bytes, State.setPC_pc, hpc]
    rfl

theorem fetchInstr_done {s t u : State} {op : Byte} {e : Entry} {i : Instr} (h : fetch8 s.pc s = .done op t)
    (he : table op = some e) (ho : fetchOperand s.pc e t = .done i u) : fetchInstr s = .done i u := by
  rw [fetchInstr, h, Attempt.andThen_done, he]
  exact ho

/-- The bytes of an instruction, standing at PC, are fetched as that instruction, with PC moved past them (R90, R111). -/
theorem fetchInstr_of_bytesStand {s : State} {i : Instr} (h : BytesStand s s.pc (encode i)) :
    fetchInstr s = .done i (s.setPC (s.pc + BitVec.ofNat 16 i.length)) := by
  obtain ⟨op, operand, henc, hr⟩ := reads_encode i
  obtain ⟨e, he, hfetch⟩ := fetchOperand_of_reads hr
  rw [henc] at h
  obtain ⟨hop, hrest⟩ := h.cons
  rw [fetchInstr_done (fetch8_of_stands hop s.pc) he (hfetch s.pc (s.setPC (s.pc + 1)) hrest), State.setPC_pc,
    add_one_add_ofNat, Instr.length, henc, List.length_cons, Nat.add_comm 1]
  rfl

/-- Settles O23: a step of a running engine is the instruction its fetches make, and standing bytes are fetched as they are. -/
theorem stepRunsTheInstructionAtPc : Obligations.StepRunsTheInstructionAtPc := by
  refine ⟨fun s i hr hbytes => ⟨wellFormed_instr i, ?_⟩, fun s t u op e i hr hop he ho => ?_⟩
  · rw [step_running hr, fetchInstr_of_bytesStand hbytes]
    rfl
  · rw [step_running hr, fetchInstr_done hop he ho]

end Sys2Proof.Machine
end

section
/-! SUPPORT. Loads, stores and transfers: Z and N of a result byte, and the pattern of an instruction that reads its cell
or stores to it, from the behaviour of its mnemonic. -/

open Sys2Proof Sys2Proof.Machine Sys2Proof.Claims

namespace Sys2Proof.Machine

/-! ## Z and N -/

/-- R18: `setZN` tests the byte for zero and takes its bit 7. -/
theorem State.setZN_eq_withZN (s : State) (r : Byte) : s.setZN r = withZN r s := by
  have hz : (r == 0) = decide (r.toNat = 0) := by rw [Bool.eq_iff_iff]; simp [BitVec.toNat_eq]
  have hn : r.getLsbD 7 = decide (128 ≤ r.toNat) := by
    rw [← BitVec.msb_eq_decide r, BitVec.msb_eq_getLsbD_last]
  rw [State.setZN, withZN, hz, hn]

/-! ## The patterns of a memory form -/

theorem exec_of_form {i : Instr} {m : MemForm} (hm : memFormOf i = some m) (s : State) :
    exec i s = (memBehaviour i.mnemonic m).run s := by
  rw [exec_eq_run, behaviour_of_form hm]

theorem start_of_form {i : Instr} {m : MemForm} (hm : memFormOf i = some m) (s : State) :
    start i s = instrStart (formLength m) s := by
  rw [formLength_eq hm, start, instrStart]

/-- The memory forms of a mnemonic that reads its cell follow R120's pattern. -/
theorem readsCell_of_memBehaviour {i : Instr} {body : Byte → State → State}
    (h : ∀ m, memBehaviour i.mnemonic m = .reads m body) : ReadsCell i body := by
  intro m s hm
  rw [start_of_form hm, exec_of_form hm, h]
  exact ⟨fun _ _ => readThen_done body, fun _ _ => readThen_oob body, fun _ => readThen_raised body⟩

/-- The memory forms of a mnemonic that stores a register follow R122's pattern. -/
theorem storesCell_of_memBehaviour {i : Instr} {reg : State → Byte}
    (h : ∀ m, memBehaviour i.mnemonic m = .stores m reg) : StoresCell i reg := by
  intro m s hm
  rw [start_of_form hm, exec_of_form hm, h]
  exact ⟨fun _ _ => storeByte_done (reg s), fun _ _ => storeByte_oob (reg s), fun _ => storeByte_raised (reg s)⟩

/-! ## Which forms a mnemonic has -/

/-- The row of LDA in R76: immediate, and seven memory forms. -/
theorem lda_imm_or_form {i : Instr} (h : i.mnemonic = .lda) : (∃ v, i = .ldaImm v) ∨ (memFormOf i).isSome = true := by
  cases i <;> cases h
  case ldaImm v => exact .inl ⟨v, rfl⟩
  all_goals exact .inr rfl

/-- The row of LDX in R76: immediate, and four memory forms. -/
theorem ldx_imm_or_form {i : Instr} (h : i.mnemonic = .ldx) : (∃ v, i = .ldxImm v) ∨ (memFormOf i).isSome = true := by
  cases i <;> cases h
  case ldxImm v => exact .inl ⟨v, rfl⟩
  all_goals exact .inr rfl

/-- The rows of STA and STX in R76: memory forms alone. -/
theorem form_of_sta_or_stx {i : Instr} (h : i.mnemonic = .sta ∨ i.mnemonic = .stx) : (memFormOf i).isSome = true := by
  rcases h with h | h <;> cases i <;> cases h <;> rfl

/-! ## The instructions -/

/-- Settles O26: an immediate LDA is its body, and any other reads its cell. -/
theorem ldaLoadsTheAccumulator : Obligations.LdaLoadsTheAccumulator := by
  simp only [Obligations.LdaLoadsTheAccumulator, ← State.setZN_eq_withZN]
  refine ⟨fun v s => rfl, fun i h => (lda_imm_or_form h).imp_right fun hform => ⟨hform, ?_⟩⟩
  exact readsCell_of_memBehaviour fun m => by rw [h]; rfl

/-- Settles O27: an immediate LDX is its body, and any other reads its cell. -/
theorem ldxLoadsIndexX : Obligations.LdxLoadsIndexX := by
  simp only [Obligations.LdxLoadsIndexX, ← State.setZN_eq_withZN]
  refine ⟨fun v s => rfl, fun i h => (ldx_imm_or_form h).imp_right fun hform => ⟨hform, ?_⟩⟩
  exact readsCell_of_memBehaviour fun m => by rw [h]; rfl

/-- Settles O28: every STA and STX has a memory form, and its mnemonic stores the register. -/
theorem staAndStxStoreTheirRegister : Obligations.StaAndStxStoreTheirRegister :=
  ⟨fun _ h => ⟨form_of_sta_or_stx (.inl h), storesCell_of_memBehaviour fun m => by rw [h]; rfl⟩,
    fun _ h => ⟨form_of_sta_or_stx (.inr h), storesCell_of_memBehaviour fun m => by rw [h]; rfl⟩⟩

/-- Settles O29: each transfer writes its register, then sets Z and N of the byte copied. -/
theorem transfersCopyAndSetZN : Obligations.TransfersCopyAndSetZN := by
  simp only [Obligations.TransfersCopyAndSetZN, ← State.setZN_eq_withZN]
  exact fun s => ⟨rfl, rfl, rfl, rfl⟩

end Sys2Proof.Machine
end

section
/-! SUPPORT. Logic and shift: the value and the carry of ASL as arithmetic on its byte, and the pattern of an instruction
that modifies its cell, from the behaviour of its mnemonic. -/

open Sys2Proof Sys2Proof.Machine Sys2Proof.Claims

namespace Sys2Proof.Machine

/-! ## The shift -/

/-- R142: a shift left by one doubles the byte, mod 256. -/
theorem aslValue_eq_ofNat (v : Byte) : aslValue v = BitVec.ofNat 8 (v.toNat * 2) := by
  apply BitVec.eq_of_toNat_eq
  rw [aslValue, BitVec.toNat_shiftLeft, BitVec.toNat_ofNat, Nat.shiftLeft_eq, Nat.pow_one]

/-- R142: the carry of ASL says whether the byte is in the upper half of its range. -/
theorem aslCarry_eq_decide (v : Byte) : aslCarry v = decide (128 ≤ v.toNat) := by
  rw [aslCarry, ← BitVec.msb_eq_decide v, BitVec.msb_eq_getLsbD_last]

/-! ## The pattern of a memory form -/

/-- The memory forms of a mnemonic that modifies its cell follow R154's pattern. -/
theorem modifiesCell_of_memBehaviour {i : Instr} {g : Byte → Byte} {flags : Byte → State → State}
    (h : ∀ m, memBehaviour i.mnemonic m = .modifies m g flags) : ModifiesCell i g flags := by
  intro m s hm
  rw [start_of_form hm, exec_of_form hm, h]
  exact ⟨fun _ _ => modifyThen_done g flags, fun _ _ => modifyThen_oob g flags, fun _ => modifyThen_raised g flags⟩

/-! ## Which forms a mnemonic has -/

/-- The row of ORA in R76: immediate, and seven memory forms. -/
theorem ora_imm_or_form {i : Instr} (h : i.mnemonic = .ora) : (∃ v, i = .oraImm v) ∨ (memFormOf i).isSome = true := by
  cases i <;> cases h
  case oraImm v => exact .inl ⟨v, rfl⟩
  all_goals exact .inr rfl

/-- The row of AND in R76: immediate, and seven memory forms. -/
theorem and_imm_or_form {i : Instr} (h : i.mnemonic = .and) : (∃ v, i = .andImm v) ∨ (memFormOf i).isSome = true := by
  cases i <;> cases h
  case andImm v => exact .inl ⟨v, rfl⟩
  all_goals exact .inr rfl

/-- The row of ASL in R76: accumulator, and four memory forms. -/
theorem asl_acc_or_form {i : Instr} (h : i.mnemonic = .asl) : i = .aslAcc ∨ (memFormOf i).isSome = true := by
  cases i <;> cases h
  case aslAcc => exact .inl rfl
  all_goals exact .inr rfl

/-! ## The instructions -/

/-- Settles O30: an immediate ORA or AND is its body, and any other reads its cell. -/
theorem oraAndAndCombineBitwise : Obligations.OraAndAndCombineBitwise := by
  simp only [Obligations.OraAndAndCombineBitwise, ← State.setZN_eq_withZN]
  refine ⟨fun v s => ⟨rfl, rfl⟩, fun i h => (ora_imm_or_form h).imp_right fun hform => ⟨hform, ?_⟩,
    fun i h => (and_imm_or_form h).imp_right fun hform => ⟨hform, ?_⟩⟩
  · exact readsCell_of_memBehaviour fun m => by rw [h]; rfl
  · exact readsCell_of_memBehaviour fun m => by rw [h]; rfl

/-- Settles O31: ASL A applies the shift and its flags to A, and any other ASL modifies its cell by them. -/
theorem aslDoublesItsOperand : Obligations.AslDoublesItsOperand := by
  simp only [Obligations.AslDoublesItsOperand, ← aslValue_eq_ofNat, ← aslCarry_eq_decide,
    ← State.setZN_eq_withZN]
  refine ⟨fun s => rfl, fun i h => (asl_acc_or_form h).imp_right fun hform => ⟨hform, ?_⟩⟩
  exact modifiesCell_of_memBehaviour fun m => by rw [h]; rfl

end Sys2Proof.Machine
end

section
/-! SUPPORT. Arithmetic: the bytes ADC, CMP, INC, DEC, INX and INY compute as numbers mod 256, and the overflow formula as a
range of the signed sum. -/

open Sys2Proof Sys2Proof.Machine Sys2Proof.Claims

namespace Sys2Proof.Machine

/-! ## Results as numbers -/

/-- R153: the difference of two bytes, borrowing from 256. -/
theorem sub_eq_ofNat (a m : Byte) : a - m = BitVec.ofNat 8 (a.toNat + 256 - m.toNat) := by
  have := m.isLt
  rw [BitVec.sub_def]
  congr 1
  omega

/-- R154: one more, mod 256. -/
theorem incValue_eq_ofNat (v : Byte) : incValue v = BitVec.ofNat 8 (v.toNat + 1) := BitVec.add_def v 1

/-- R155: one less is 255 more, mod 256. -/
theorem decValue_eq_ofNat (v : Byte) : decValue v = BitVec.ofNat 8 (v.toNat + 255) := by
  rw [decValue, sub_eq_ofNat]
  rfl

/-- R156, R157: one more, the number itself taken mod 256. -/
theorem add_one_eq_ofNat_mod (v : Byte) : v + 1 = BitVec.ofNat 8 ((v.toNat + 1) % 256) := by
  apply BitVec.eq_of_toNat_eq
  rw [BitVec.toNat_add, BitVec.toNat_ofNat, Nat.mod_mod]
  rfl

/-! ## Overflow -/

/-- R152: the formula compares the sign of the result with the signs of both operands. -/
theorem overflowOf_iff_signs (a m r : Byte) :
    overflowOf a m r = true ↔ ¬ (128 ≤ a.toNat ↔ 128 ≤ r.toNat) ∧ ¬ (128 ≤ m.toNat ↔ 128 ≤ r.toNat) := by
  have hsign (b : Byte) : b.getLsbD 7 = decide (128 ≤ b.toNat) := aslCarry_eq_decide b
  rw [overflowOf, BitVec.getLsbD_and, BitVec.getLsbD_xor, BitVec.getLsbD_xor]
  simp only [hsign, Bool.and_eq_true, bne_iff_ne, ne_eq, decide_eq_decide]

/-- Settles O33: the result is the unsigned sum less 0 or 256, and its sign differs from both operands' where they have one
sign and the signed sum has left the range of a byte. -/
theorem overflowIsSignedSumOutOfRange : Obligations.OverflowIsSignedSumOutOfRange := by
  intro a m c
  have ha := a.isLt
  have hm := m.isLt
  rw [overflowOf_iff_signs, BitVec.toNat_ofNat]
  cases c <;> simp only [signed, Bool.toNat_false, Bool.toNat_true, Bool.false_eq_true, if_false, if_true] <;> omega

/-! ## Which forms a mnemonic has -/

/-- The row of ADC in R76: immediate, and seven memory forms. -/
theorem adc_imm_or_form {i : Instr} (h : i.mnemonic = .adc) : (∃ v, i = .adcImm v) ∨ (memFormOf i).isSome = true := by
  cases i <;> cases h
  case adcImm v => exact .inl ⟨v, rfl⟩
  all_goals exact .inr rfl

/-- The row of CMP in R76: immediate, and seven memory forms. -/
theorem cmp_imm_or_form {i : Instr} (h : i.mnemonic = .cmp) : (∃ v, i = .cmpImm v) ∨ (memFormOf i).isSome = true := by
  cases i <;> cases h
  case cmpImm v => exact .inl ⟨v, rfl⟩
  all_goals exact .inr rfl

/-- The rows of INC and DEC in R76: memory forms alone. -/
theorem form_of_inc_or_dec {i : Instr} (h : i.mnemonic = .inc ∨ i.mnemonic = .dec) : (memFormOf i).isSome = true := by
  rcases h with h | h <;> cases i <;> cases h <;> rfl

/-! ## The instructions -/

/-- Settles O32: an immediate ADC is its body, and any other reads its cell. -/
theorem adcAddsWithCarry : Obligations.AdcAddsWithCarry := by
  simp only [Obligations.AdcAddsWithCarry, ← State.setZN_eq_withZN]
  refine ⟨fun v s => rfl, fun i h => (adc_imm_or_form h).imp_right fun hform => ⟨hform, ?_⟩⟩
  exact readsCell_of_memBehaviour fun m => by rw [h]; rfl

/-- Settles O34: an immediate CMP is its body, and any other reads its cell. -/
theorem cmpComparesWithoutWriting : Obligations.CmpComparesWithoutWriting := by
  simp only [Obligations.CmpComparesWithoutWriting, ← sub_eq_ofNat, ← State.setZN_eq_withZN]
  refine ⟨fun v s => rfl, fun i h => (cmp_imm_or_form h).imp_right fun hform => ⟨hform, ?_⟩⟩
  exact readsCell_of_memBehaviour fun m => by rw [h]; rfl

/-- Settles O35: every INC and DEC has a memory form, and its mnemonic modifies the cell. -/
theorem incAndDecChangeTheirCellByOne : Obligations.IncAndDecChangeTheirCellByOne := by
  simp only [Obligations.IncAndDecChangeTheirCellByOne, ← incValue_eq_ofNat, ← decValue_eq_ofNat,
    ← State.setZN_eq_withZN]
  exact ⟨fun i h => ⟨form_of_inc_or_dec (.inl h), modifiesCell_of_memBehaviour fun m => by rw [h]; rfl⟩,
    fun i h => ⟨form_of_inc_or_dec (.inr h), modifiesCell_of_memBehaviour fun m => by rw [h]; rfl⟩⟩

/-- Settles O36: the register one more, then Z and N of it. -/
theorem inxAndInyWrap : Obligations.InxAndInyWrap := by
  simp only [Obligations.InxAndInyWrap, ← add_one_eq_ofNat_mod, ← State.setZN_eq_withZN]
  exact fun s => ⟨rfl, rfl⟩

end Sys2Proof.Machine
end

section
/-! SUPPORT. Control transfer: where a branch goes as a number, what a branch and JMP IND do by their conditions, and the two
bodies without an operand. -/

open Sys2Proof Sys2Proof.Machine Sys2Proof.Claims

namespace Sys2Proof.Machine

/-! ## Branches -/

/-- R106, R174: the target is PC plus the signed displacement, mod 2^16. -/
theorem relTarget_toNat (pc : Word) (d : Byte) :
    ((relTarget pc d).toNat : Int) = ((pc.toNat : Int) + signed d) % 65536 := by
  rw [relTarget, BitVec.toNat_ofInt, Int.toNat_of_nonneg (Int.emod_nonneg _ (by decide))]
  rfl

/-- R172: a set Z takes BEQ. -/
theorem exec_beq (d : Byte) (s : State) :
    exec (.beq d) s = .next (if s.zero then s.setPC (relTarget s.pc d) else s) := rfl

/-- R173: a set Z leaves BNE untaken. -/
theorem exec_bne (d : Byte) (s : State) :
    exec (.bne d) s = .next (if s.zero then s else s.setPC (relTarget s.pc d)) := by
  have h : exec (.bne d) s = .next (if !s.zero then s.setPC (relTarget s.pc d) else s) := rfl
  rw [h]
  cases s.zero <;> rfl

/-- Settles O38: the branches share one target and take opposite sides of Z. -/
theorem branchesAddSignedDisplacement : Obligations.BranchesAddSignedDisplacement :=
  fun d s => ⟨relTarget s.pc d, relTarget_toNat s.pc d, exec_beq d s, exec_bne d s⟩

/-! ## Jumps -/

/-- Settles O37: JMP ABS is its body; the outcomes of JMP IND are told apart by which of its pointer bytes is out of
bounds. -/
theorem jmpSetsPcToItsTarget : Obligations.JmpSetsPcToItsTarget := by
  refine ⟨fun w s => rfl, ?_⟩
  intro p s q
  have hq : q = p + 1 := (BitVec.add_def p 1).symm
  rw [hq, State.afterRead_eq, State.afterRead_eq]
  rcases jmpInd_cases p s with ⟨t, n, hlo, hhi, rfl, rfl, he⟩ | ⟨a, n, ha, he, ⟨rfl, rfl⟩ | ⟨rfl, hlo, rfl⟩⟩
  · exact ⟨fun _ _ => ⟨_, mk16_toNat _ _, he⟩, fun h => absurd hlo h, fun _ h => absurd hhi h⟩
  · exact ⟨fun h _ => absurd h ha, fun _ => he, fun h _ => absurd h ha⟩
  · exact ⟨fun _ h => absurd h ha, fun h => absurd hlo h, fun _ _ => he⟩

/-! ## NOP and BRK -/

/-- Settles O39: the body of NOP is the state itself. -/
theorem nopChangesNothing : Obligations.NopChangesNothing := fun _ => rfl

/-- Settles O40: the body of BRK is its two writes. -/
theorem brkHaltsAndSetsB : Obligations.BrkHaltsAndSetsB := fun _ => rfl

end Sys2Proof.Machine
end

section
/-! SUPPORT. The control surface: a halted engine is a fixed point of every move, so of every schedule. -/

open Sys2Proof Sys2Proof.Machine Sys2Proof.Claims

namespace Sys2Proof.Machine

/-! ## A halted engine -/

/-- R196: halting an engine that has halted changes nothing. -/
theorem State.halt_eq_self {s : State} (h : s.running = false) : s.halt = s := by
  rw [State.halt, ← h]

/-- R196, R199, R220: no move changes a halted engine. -/
theorem Move.apply_halted {s : State} (h : s.running = false) (mv : Move) : mv.apply s = .next s := by
  cases mv with
  | step => exact step_halted h
  | requestStop => exact congrArg Host.Outcome.next (State.halt_eq_self h)
  | observe a drawn => rfl

/-- R220: no schedule changes a halted engine. -/
theorem runMoves_halted {s : State} (h : s.running = false) (ms : List Move) : runMoves s ms = .next s := by
  induction ms with
  | nil => rfl
  | cons mv ms ih =>
    rw [runMoves, Move.apply_halted h]
    exact ih

/-- A schedule that begins with a stop request goes on from the halted state. -/
theorem runMoves_requestStop (s : State) (ms : List Move) : runMoves s (.requestStop :: ms) = runMoves s.halt ms := rfl

/-- Settles O45: the request leaves the halted state, which the rest of the schedule keeps. -/
theorem stopRequestHaltsForGood : Obligations.StopRequestHaltsForGood := by
  intro s t ms h
  rw [runMoves_requestStop, runMoves_halted s.halt_running] at h
  cases h
  rfl

end Sys2Proof.Machine
end

section
/-! SUPPORT. Faults and halting: every step answers a next state, what a fetch that fails makes of the step, what a step that
latches a fault or stops the engine has done, and the frozen state after it. -/

open Sys2Proof Sys2Proof.Machine Sys2Proof.Claims

namespace Sys2Proof.Machine

/-! ## Every step answers a next state -/

theorem exec_answers_next (i : Instr) (s : State) : ∃ t, exec i s = .next t := by
  rcases exec_cases i s with ⟨t, h, -⟩ | ⟨a, n, -, h⟩ <;> exact ⟨_, h⟩

theorem step_answers_next (s : State) : ∃ t, step s = .next t := by
  cases hr : s.running with
  | false => exact ⟨s, step_halted hr⟩
  | true =>
    rcases step_cases hr with ⟨i, n, t, -, h, -⟩ | ⟨a, pc, n, -, h⟩ | ⟨op, n, -, h⟩ <;> exact ⟨_, h⟩

/-- Settles O25, from the outcomes of an instruction and of a step: a fault is one of the next states. -/
theorem everyStepAnswersNext : Obligations.EveryStepAnswersNext := ⟨exec_answers_next, step_answers_next⟩

/-- Settles O24: the step answers the state itself, so an observer reads from the same memory. -/
theorem haltedEngineIsQuiescent : Obligations.HaltedEngineIsQuiescent := by
  refine fun s h => ⟨step_halted h, fun t a drawn ht => ?_⟩
  cases (step_halted h).symm.trans ht
  rfl

/-! ## Fetches that fail -/

theorem fetch8_valid {s : State} (h : s.validAddr s.pc) (pc0 : Word) :
    fetch8 pc0 s = .done (s.peek s.pc) ((s.afterRead s.pc).setPC (s.pc + 1)) := by
  rw [fetch8, memRead_valid h, Attempt.andThen_done, State.afterRead_pc]

theorem fetch8_invalid {s : State} (h : ¬ s.validAddr s.pc) (pc0 : Word) :
    fetch8 pc0 s = .raised (s.takeFault (.outOfBounds s.pc pc0)) := by
  rw [fetch8, memRead_invalid h, Attempt.andThen_raised]

/-- A read does not look at PC. -/
theorem State.afterRead_setPC (s : State) (pc a : Word) : (s.setPC pc).afterRead a = (s.afterRead a).setPC pc := by
  rw [State.afterRead_eq, State.afterRead_eq]
  rfl

/-- A completed fetch changes nothing but PC and the draw counter. -/
theorem fetch8_done_frame {pc0 : Word} {s t : State} {v : Byte} (h : fetch8 pc0 s = .done v t) :
    t = { s with pc := t.pc, draws := t.draws } := by
  rcases fetch8_cases pc0 s with ⟨-, h'⟩ | ⟨-, h'⟩ <;> rw [h'] at h <;> cases h
  rfl

/-- An entry with operand bytes fails where the first has no cell. -/
theorem fetchOperand_first_oob {e : Entry} (he : 1 ≤ e.operandBytes) {s : State} (hv : ¬ s.validAddr s.pc) (pc0 : Word) :
    fetchOperand pc0 e s = .raised (s.takeFault (.outOfBounds s.pc pc0)) := by
  cases e with
  | f1 i => exact absurd he (by simp [Entry.operandBytes])
  | f2 f => rw [fetchOperand, fetch8_invalid hv, Attempt.andThen_raised]
  | f3 f => rw [fetchOperand, fetch16, fetch8_invalid hv, Attempt.andThen_raised, Attempt.andThen_raised]

/-- An entry with two operand bytes fails where the first is fetched and the second has no cell. -/
theorem fetchOperand_second_oob {e : Entry} (he : e.operandBytes = 2) {pc0 : Word} {s t : State} {lo : Byte}
    (h : fetch8 pc0 s = .done lo t) (hv : ¬ t.validAddr t.pc) :
    fetchOperand pc0 e s = .raised (t.takeFault (.outOfBounds t.pc pc0)) := by
  cases e with
  | f1 i => cases he
  | f2 f => cases he
  | f3 f =>
    rw [fetchOperand, fetch16, h, Attempt.andThen_done, fetch8_invalid hv, Attempt.andThen_raised, Attempt.andThen_raised]

/-- A fault taken in the fetches is where the step ends (R90, R214). -/
theorem step_of_fetch_raised {s t : State} (hr : s.running = true) (h : fetchInstr s = .raised t) : step s = .next t := by
  rw [step_running hr, h]

theorem step_pc_oob {s : State} (hr : s.running = true) (hv : ¬ s.validAddr s.pc) :
    step s = .next (s.takeFault (.outOfBounds s.pc s.pc)) :=
  step_of_fetch_raised hr (by rw [fetchInstr, fetch8_invalid hv, Attempt.andThen_raised])

theorem step_unmapped {s t : State} {op : Byte} (hr : s.running = true) (h : fetch8 s.pc s = .done op t)
    (hop : table op = none) : step s = .next (t.takeFault (.invalidOpcode op s.pc)) :=
  step_of_fetch_raised hr (by rw [fetchInstr, h, Attempt.andThen_done, hop])

theorem step_operand_raised {s t u : State} {op : Byte} {e : Entry} (hr : s.running = true)
    (h : fetch8 s.pc s = .done op t) (he : table op = some e) (ho : fetchOperand s.pc e t = .raised u) :
    step s = .next u :=
  step_of_fetch_raised hr (by rw [fetchInstr, h, Attempt.andThen_done, he]; exact ho)

/-- Settles O41: the fault is taken in the state the opcode fetch leaves, and halts, so the next step finds a halted engine. -/
theorem unmappedOpcodeFaultsAfterItsByte : Obligations.UnmappedOpcodeFaultsAfterItsByte := by
  intro s t op hr h hop
  have hs := step_unmapped hr h hop
  refine ⟨hs, fetch8_done_pc h, fetch8_done_frame h, fun u v hu hv => ?_⟩
  cases hs.symm.trans hu
  exact (Host.Outcome.next.inj ((step_halted (State.takeFault_running _ _)).symm.trans hv)).symm

/-- Settles O42, by the first fetch that finds no cell: the opcode byte's, the first or the second operand byte's. -/
theorem fetchFaultsLeavePcAtTheMissingByte : Obligations.FetchFaultsLeavePcAtTheMissingByte := by
  refine fun s hr => ⟨step_pc_oob hr, fun op e hv hop he => ?_⟩
  subst hop
  have hop := fetch8_valid hv s.pc
  have hpc : s.pc + 1 + 1 = s.pc + 2 := add_one_add_ofNat s.pc 1
  refine ⟨fun h1 hv1 => ?_, fun h2 hv1 hv2 => ?_⟩
  · have hv1' : ¬ ((s.afterRead s.pc).setPC (s.pc + 1)).validAddr (s.pc + 1) := by simpa using hv1
    exact step_operand_raised hr hop he (fetchOperand_first_oob h1 hv1' s.pc)
  · have hv1' : ((s.afterRead s.pc).setPC (s.pc + 1)).validAddr (s.pc + 1) := by simpa using hv1
    have hlo := fetch8_valid hv1' s.pc
    rw [State.setPC_pc, State.afterRead_setPC, hpc] at hlo
    exact step_operand_raised hr hop he (fetchOperand_second_oob h2 hlo (by simpa using hv2))

/-! ## What a step of a running engine has done -/

/-- Read off a known answer: a step has run an instruction to its end, or has taken one of the two faults in a state that
differs from the one before in PC and draws alone. -/
theorem step_next_cases {s t : State} (hr : s.running = true) (h : step s = .next t) :
    (∃ i n, fetchInstr s = .done i (s.fetched (s.pc + BitVec.ofNat 16 i.length) n) ∧
      Kept i (s.fetched (s.pc + BitVec.ofNat 16 i.length) n) t) ∨
    (∃ a pc n, ¬ s.validAddr a ∧ t = (s.fetched pc n).takeFault (.outOfBounds a s.pc)) ∨
    (∃ op n, table op = none ∧ t = (s.fetched (s.pc + 1) n).takeFault (.invalidOpcode op s.pc)) := by
  rcases step_cases hr with ⟨i, n, u, hf, hs, hk⟩ | ⟨a, pc, n, ha, hs⟩ | ⟨op, n, hop, hs⟩ <;>
    obtain rfl := Host.Outcome.next.inj (h.symm.trans hs)
  · exact .inl ⟨i, n, hf, hk⟩
  · exact .inr (.inl ⟨a, pc, n, ha, rfl⟩)
  · exact .inr (.inr ⟨op, n, hop, rfl⟩)

/-- Settles O43: an instruction run to its end latches nothing, and either fault is taken in a state that differs in PC and
draws alone. -/
theorem faultsChangeOnlyPcRunningAndLatch : Obligations.FaultsChangeOnlyPcRunningAndLatch := by
  intro s t hr hf h ht
  rcases step_next_cases hr h with ⟨i, n, -, hk⟩ | ⟨a, pc, n, ha, rfl⟩ | ⟨op, n, hop, rfl⟩
  · exact absurd (hk.fault.trans hf) ht
  · exact ⟨rfl, .inl ⟨a, rfl, ha⟩⟩
  · exact ⟨rfl, .inr ⟨op, rfl, hop, rfl⟩⟩

/-- R219: a step stops a running engine by BRK or by latching a fault, and by nothing else. -/
theorem step_halts_iff {s t : State} (hr : s.running = true) (hf : s.fault = none) (h : step s = .next t) :
    t.running = false ↔
      (∃ u, fetchInstr s = .done .brk u) ∨ (∃ a pc, t.fault = some (.outOfBounds a pc)) ∨
      ∃ op pc, t.fault = some (.invalidOpcode op pc) := by
  rcases step_next_cases hr h with ⟨i, n, hi, hk⟩ | ⟨a, pc, n, -, rfl⟩ | ⟨op, n, -, rfl⟩
  · have hnone : t.fault = none := hk.fault.trans hf
    by_cases hb : i = .brk
    · subst hb
      exact iff_of_true (hk.brk rfl).1 (.inl ⟨_, hi⟩)
    · have hrun : t.running = true := (hk.running hb).trans hr
      simp [hrun, hnone, hi, hb]
  · exact iff_of_true rfl (.inr (.inl ⟨a, s.pc, rfl⟩))
  · exact iff_of_true rfl (.inr (.inr ⟨op, s.pc, rfl⟩))

/-- Settles O46, by cases on the move: a step stops the engine by BRK or a fault, a stop request always, an observer's read
never; no move changes a halted engine. -/
theorem engineStopsInExactlyFourWays : Obligations.EngineStopsInExactlyFourWays := by
  refine fun s t mv hf h => ⟨fun hr => ?_, fun hr => ?_⟩
  · cases mv with
    | step => simpa using step_halts_iff hr hf h
    | requestStop =>
      cases h
      exact iff_of_true rfl (.inr (.inr (.inr rfl)))
    | observe a drawn =>
      cases h
      simp [hr]
  · cases (Move.apply_halted hr mv).symm.trans h
    exact hr

/-! ## After a fault -/

theorem State.endedWell_iff (s : State) :
    s.endedWell = true ↔ s.running = false ∧ s.fault = none ∧ s.breakFlag = true := by
  simp [State.endedWell, State.ended, and_assoc]

/-- R221: with a fault latched a run has not ended well. -/
theorem State.endedWell_of_fault {s : State} (h : s.fault ≠ none) : s.endedWell = false := by
  rw [← Bool.not_eq_true, State.endedWell_iff]
  exact fun ⟨_, hnone, _⟩ => h hnone

/-- Settles O44: by the invariant the engine has halted, and no schedule changes a halted engine. -/
theorem faultedStateIsFinal : Obligations.FaultedStateIsFinal := by
  intro s t ms hinv hf h
  have hr := hinv.fault_halts hf
  exact ⟨State.endedWell_of_fault hf, hr, (Host.Outcome.next.inj ((runMoves_halted hr ms).symm.trans h)).symm⟩

end Sys2Proof.Machine
end

section
/-! SUPPORT. Runs from boot: the loader keeps memory canonical and inside its size, so a booted machine meets the invariant,
every schedule keeps it, and it leaves one ending to each state. -/

open Sys2Proof Sys2Proof.Machine Sys2Proof.Claims

namespace Sys2Proof.Machine

/-! ## The loader's memory -/

/-- A memory is canonical and lies inside a size, as the invariant asks. -/
structure Memory.Fits (size : Nat) (m : Memory) : Prop where
  wf : m.wf
  inside : ∀ c ∈ m, c.1 < size

namespace Memory.Fits

variable {size : Nat} {m : Memory}

theorem nil : Fits size [] := ⟨⟨.nil, nofun⟩, nofun⟩

theorem hostWrite (h : m.Fits size) (a : Int) (v : Byte) : (Machine.hostWrite size m a v).mem.Fits size := by
  by_cases ha : 0 ≤ a ∧ a < size
  · obtain ⟨h0, hs⟩ := ha
    rw [hostWrite_inside h0 hs]
    exact ⟨write_wf h.wf a.toNat v, write_inside h.inside (by omega) v⟩
  · rw [hostWrite_outside ha]
    exact h

theorem writeBulk (h : m.Fits size) (a : Int) (bytes : List Byte) : (Machine.writeBulk size m a bytes).mem.Fits size := by
  induction bytes generalizing m a with
  | nil => exact h
  | cons v vs ih =>
    by_cases ha : 0 ≤ a ∧ a < size
    · obtain ⟨h0, hs⟩ := ha
      have hw := h.hostWrite a v
      rw [hostWrite_inside h0 hs] at hw
      rw [writeBulk_cons_inside h0 hs]
      exact ih hw (a + 1)
    · rw [writeBulk_cons_outside ha]
      exact h

/-- Every operation of the loader, failed or not, leaves a fitting memory. -/
theorem loaderOp (h : m.Fits size) (op : LoaderOp) : (op.apply size m).mem.Fits size := by
  cases op with
  | write a v => exact h.hostWrite a v
  | writeBulk a bytes => exact h.writeBulk a bytes
  | fill a count v => exact h.writeBulk a _

theorem loaderOps (h : m.Fits size) (ops : List LoaderOp) :
    (ops.foldl (fun m op => (op.apply size m).mem) m).Fits size := by
  induction ops generalizing m with
  | nil => exact h
  | cons op ops ih => exact ih (h.loaderOp op)

end Memory.Fits

/-! ## Boot and schedules -/

/-- An engine constructed on a fitting memory of an allowed size meets the invariant. -/
theorem construct_inv {size : Nat} {m : Memory} (hsize : memSizeAllowed size = true) (hm : m.Fits size) (entry : Word)
    (draws : Nat) : (State.construct size m entry draws).Inv where
  mem_wf := hm.wf
  mem_inside := hm.inside
  size_allowed := hsize
  sp_inert := rfl
  i_inert := rfl
  d_inert := rfl
  fault_halts h := absurd rfl h
  break_halts := nofun
  fault_excludes_break _ := rfl

theorem boot_inv {size : Nat} (hsize : memSizeAllowed size = true) (entry : Word) (draws : Nat) (ops : List LoaderOp) :
    (boot size entry draws ops).Inv :=
  construct_inv hsize (Memory.Fits.nil.loaderOps ops) entry draws

/-- What every move keeps, every schedule keeps. -/
theorem runMoves_keeps {P : State → Prop} (hP : ∀ s t mv, P s → Move.apply s mv = .next t → P t) {s t : State}
    {ms : List Move} (hs : P s) (h : runMoves s ms = .next t) : P t := by
  induction ms generalizing s with
  | nil =>
    cases h
    exact hs
  | cons mv ms ih =>
    rw [runMoves] at h
    cases hmv : mv.apply s with
    | next u =>
      rw [hmv] at h
      exact ih (hP s u mv hs hmv) h
    | fault _ | refused _ =>
      rw [hmv] at h
      cases h

theorem runMoves_inv {s t : State} {ms : List Move} (hs : s.Inv) (h : runMoves s ms = .next t) : t.Inv :=
  runMoves_keeps everyMoveKeepsTheInvariant hs h

/-! ## The endings (R221) -/

/-- Running and the three endings split on RUNNING, then FAULT, then B. -/
theorem exactly_one_ending (s : State) :
    ([s.running, s.endedWell, s.cutShort, s.faulted].filter id).length = 1 := by
  simp only [State.endedWell, State.cutShort, State.faulted, State.ended]
  cases s.running with
  | true => rfl
  | false =>
    cases s.fault with
    | some f => rfl
    | none => cases s.breakFlag <;> rfl

theorem State.faulted_iff (s : State) : s.faulted = true ↔ s.running = false ∧ s.fault ≠ none := by
  simp [State.faulted, State.ended, Option.isSome_iff_ne_none]

/-- With the invariant a set B is a good end: it halts and excludes a fault. -/
theorem State.Inv.breakFlag_iff_endedWell {s : State} (h : s.Inv) : s.breakFlag = true ↔ s.endedWell = true := by
  rw [State.endedWell_iff]
  refine ⟨fun hb => ⟨h.break_halts hb, ?_, hb⟩, fun ⟨_, _, hb⟩ => hb⟩
  by_contra hf
  rw [h.fault_excludes_break hf] at hb
  cases hb

/-- With the invariant a latched fault is a faulted end: it halts. -/
theorem State.Inv.fault_iff_faulted {s : State} (h : s.Inv) : s.fault ≠ none ↔ s.faulted = true := by
  rw [State.faulted_iff]
  exact ⟨fun hf => ⟨h.fault_halts hf, hf⟩, And.right⟩

/-- Settles O54: the invariant holds at boot and along the schedule, and ties B and FAULT to the endings. -/
theorem everyRunEndsInExactlyOneWay : Obligations.EveryRunEndsInExactlyOneWay := by
  intro size entry draws ops ms t hsize h
  have hinv := runMoves_inv (boot_inv hsize entry draws ops) h
  exact ⟨exactly_one_ending t, hinv.breakFlag_iff_endedWell, hinv.fault_iff_faulted⟩

end Sys2Proof.Machine
end

section
/-! SUPPORT. Reset is construction (R240) on a fresh address space, so the reset state, like every booted machine, meets
the invariant because construction on a fitting memory does. -/

open Sys2Proof Sys2Proof.Machine

namespace Sys2Proof.Machine

/-- The reset state is the engine constructed on a fresh address space of the default size (R29, R240). -/
theorem State.reset_eq_construct : State.reset = State.construct Config.memSizeDefault [] Config.entry 0 := rfl

theorem memSizeAllowed_default : memSizeAllowed Config.memSizeDefault = true := by decide

/-- Settles O2: the loader's memory fits its size, and construction on it meets the invariant. -/
theorem bootMeetsInvariant : Obligations.BootMeetsInvariant := by
  intro size entry draws ops hsize
  exact boot_inv hsize entry draws ops

/-- Settles O1: construction overrides the reset state in just the four fields it is given, and no cell of a fresh address
space is listed. -/
theorem constructionGivesResetValues : Obligations.ConstructionGivesResetValues :=
  ⟨fun _ _ _ _ => rfl, Memory.read_nil, State.reset_eq_construct⟩

/-- Settles O3: reset is construction on the empty memory, which fits every size. -/
theorem resetMeetsInvariant : Obligations.ResetMeetsInvariant := by
  unfold Obligations.ResetMeetsInvariant
  rw [State.reset_eq_construct]
  exact construct_inv memSizeAllowed_default Memory.Fits.nil Config.entry 0

end Sys2Proof.Machine
end
